-- ==== Sys2Proof/Word.lean ====
section
/-! DEFINITION. The word types of the block (spec/00_scope.md R5, R9; spec/30_encoding.md R80). -/

namespace Sys2Proof

/-- A 64-bit value: one limb of a BigInt (R5) and one register of the host window (R54).
Bit 0 is the least significant bit (R9). -/
abbrev Word := BitVec 64

/-- A command word (R80). -/
abbrev CmdWord := BitVec 32

/-- A register field of a command word: an unsigned 8-bit register index (R80, R83). -/
abbrev Reg := BitVec 8

end Sys2Proof
end

