-- ==== Sys2Proof/Config.lean ====
section
/-! DEFINITION. The parameters of one instance of the block (spec/00_scope.md R6, R7). They are plain data and stand
in the state (a program reads them, R30); no step changes them. The spec leaves no value undefined, so this file
declares no free value (see INVENTORY.md, What the manual leaves open). -/

namespace Sys2Proof

/-- The parameters that R6 says the model takes as arguments. -/
structure Params where
  /-- `NREG`, the number of BigInt registers. -/
  nreg : Nat
  /-- `MAXLIMBS`, the largest length and capacity of one register, in limbs. -/
  maxLimbs : Nat
  /-- `SCHOOLBOOK_MAX_LIMBS`, the largest product size that goes to schoolbook; the Karatsuba base case. -/
  schoolbookMax : Nat
  /-- `FFT_THRESHOLD_LIMBS`, the product size above which the dispatcher takes the FFT path. -/
  fftThreshold : Nat
  /-- `BASE`, the address at which the platform places the 256-byte register window. -/
  base : Nat
  deriving DecidableEq, Repr

/-- The legal values of R6's table, one conjunct a parameter. -/
def Params.legal (p : Params) : Bool :=
  (1 ≤ p.nreg && p.nreg ≤ 256) &&
  (1 ≤ p.maxLimbs && p.maxLimbs ≤ 2 ^ 57) &&
  (3 ≤ p.schoolbookMax && p.schoolbookMax ≤ 65535) &&
  (p.schoolbookMax ≤ p.fftThreshold && p.fftThreshold ≤ 2 ^ 64 - 1) &&
  p.base % 256 == 0

/-- The reference configuration (R7). DESIGN CHOICE (log 1): the spec leaves `NREG`, `MAXLIMBS`,
`FFT_THRESHOLD_LIMBS` and `BASE` open; `State.reset` is the reset state of this instance, and every statement is
about a state with any legal parameters. -/
def Params.reference : Params :=
  { nreg := 16, maxLimbs := 1024, schoolbookMax := 32, fftThreshold := 512, base := 0 }

end Sys2Proof
end

