-- ==== Sys2Proof/Syntax.lean ====
section
/-! DEFINITION. The command set: one constructor per row of spec/opcode_table.json (spec/30_encoding.md R85). A
constructor carries the register fields its format uses (R81); scalar operands come from ARG0 and ARG1 (R82). -/

namespace Sys2Proof

/-- The 31 commands of R85, in the table's order. -/
inductive Instr where
  /-- `NOP` (R100) -/
  | nop
  /-- `LDI rd` (R105) -/
  | ldi (rd : Reg)
  /-- `COPY rd, rs1` (R102) -/
  | copy (rd rs1 : Reg)
  /-- `MOVE rd, rs1` (R103) -/
  | move (rd rs1 : Reg)
  /-- `RESIZE rd` (R104) -/
  | resize (rd : Reg)
  /-- `RDLIMB rs1` (R106) -/
  | rdlimb (rs1 : Reg)
  /-- `WRLIMB rd` (R107) -/
  | wrlimb (rd : Reg)
  /-- `LEN rs1` (R108) -/
  | len (rs1 : Reg)
  /-- `CAP rs1` (R109) -/
  | cap (rs1 : Reg)
  /-- `BITLEN rs1` (R110) -/
  | bitlen (rs1 : Reg)
  /-- `ADDM rd, rs1, rs2` (R120) -/
  | addm (rd rs1 rs2 : Reg)
  /-- `SUBM rd, rs1, rs2` (R121) -/
  | subm (rd rs1 rs2 : Reg)
  /-- `CMPM rs1, rs2` (R122) -/
  | cmpm (rs1 rs2 : Reg)
  /-- `MUL rd, rs1, rs2` (R142) -/
  | mul (rd rs1 rs2 : Reg)
  /-- `MULS rd, rs1, rs2` (R143) -/
  | muls (rd rs1 rs2 : Reg)
  /-- `MULK rd, rs1, rs2` (R144) -/
  | mulk (rd rs1 rs2 : Reg)
  /-- `MULF rd, rs1, rs2` (R145) -/
  | mulf (rd rs1 rs2 : Reg)
  /-- `DIV rd, rs1, rs2` (R161) -/
  | div (rd rs1 rs2 : Reg)
  /-- `MOD rd, rs1, rs2` (R162) -/
  | mod (rd rs1 rs2 : Reg)
  /-- `AND rd, rs1, rs2` (R181) -/
  | and (rd rs1 rs2 : Reg)
  /-- `OR rd, rs1, rs2` (R182) -/
  | or (rd rs1 rs2 : Reg)
  /-- `XOR rd, rs1, rs2` (R183) -/
  | xor (rd rs1 rs2 : Reg)
  /-- `SHL rd, rs1` (R185) -/
  | shl (rd rs1 : Reg)
  /-- `SHR rd, rs1` (R186) -/
  | shr (rd rs1 : Reg)
  /-- `ADD rd, rs1, rs2` (R200) -/
  | add (rd rs1 rs2 : Reg)
  /-- `SUB rd, rs1, rs2` (R201) -/
  | sub (rd rs1 rs2 : Reg)
  /-- `NEG rd, rs1` (R202) -/
  | neg (rd rs1 : Reg)
  /-- `ABS rd, rs1` (R203) -/
  | abs (rd rs1 : Reg)
  /-- `CMP rs1, rs2` (R204) -/
  | cmp (rs1 rs2 : Reg)
  /-- `ISZERO rs1` (R205) -/
  | iszero (rs1 : Reg)
  /-- `ISNEG rs1` (R206) -/
  | isneg (rs1 : Reg)
  deriving DecidableEq, Repr

end Sys2Proof
end

