-- ==== Sys2Proof/WellFormed.lean ====
section
/-! DEFINITION. Which command terms are well formed on an instance with `nreg` registers (spec/30_encoding.md R83,
R84; spec/60_exceptions.md R221). The type already keeps each field to 8 bits and leaves no unused field to set. -/

namespace Sys2Proof

/-- A register field names a register of the file: its index is below `NREG` (R83). -/
def Reg.inFile (nreg : Nat) (r : Reg) : Bool := decide (r.toNat < nreg)

/-- Every register field that the command uses is below `NREG` (R221). -/
def Instr.wellFormed (nreg : Nat) : Instr → Bool
  | .nop => true
  | .ldi rd | .resize rd | .wrlimb rd => Reg.inFile nreg rd
  | .rdlimb rs1 | .len rs1 | .cap rs1 | .bitlen rs1 | .iszero rs1 | .isneg rs1 => Reg.inFile nreg rs1
  | .copy rd rs1 | .move rd rs1 | .shl rd rs1 | .shr rd rs1 | .neg rd rs1 | .abs rd rs1 =>
      Reg.inFile nreg rd && Reg.inFile nreg rs1
  | .cmpm rs1 rs2 | .cmp rs1 rs2 => Reg.inFile nreg rs1 && Reg.inFile nreg rs2
  | .addm rd rs1 rs2 | .subm rd rs1 rs2
  | .mul rd rs1 rs2 | .muls rd rs1 rs2 | .mulk rd rs1 rs2 | .mulf rd rs1 rs2
  | .div rd rs1 rs2 | .mod rd rs1 rs2
  | .and rd rs1 rs2 | .or rd rs1 rs2 | .xor rd rs1 rs2
  | .add rd rs1 rs2 | .sub rd rs1 rs2 =>
      Reg.inFile nreg rd && Reg.inFile nreg rs1 && Reg.inFile nreg rs2

end Sys2Proof
end

