-- ==== Sys2Proof/Decode.lean ====
section
/-! DEFINITION. The decoder of a command word, the register fields a command uses, and the encoder
(spec/30_encoding.md R80 to R87). -/

namespace Sys2Proof

/-- Why a word is no command. Both reasons are reported as IllegalCommand (R84, R86). -/
inductive DecodeReject where
  /-- The opcode is no row of R85. -/
  | unassignedOpcode
  /-- A field that the format does not use is not zero (R81). -/
  | nonzeroUnusedField
  deriving DecidableEq, Repr

/-- The opcode field, bits 7:0 (R80). -/
def opField (w : CmdWord) : BitVec 8 := w.extractLsb' 0 8

/-- The `rd` field, bits 15:8 (R80). -/
def rdField (w : CmdWord) : Reg := w.extractLsb' 8 8

/-- The `rs1` field, bits 23:16 (R80). -/
def rs1Field (w : CmdWord) : Reg := w.extractLsb' 16 8

/-- The `rs2` field, bits 31:24 (R80). -/
def rs2Field (w : CmdWord) : Reg := w.extractLsb' 24 8

/-- R84's second check: the bits under the format's mask are those of the opcode alone. -/
def underMask (mask w : CmdWord) (i : Instr) : Except DecodeReject Instr :=
  if w &&& mask = (opField w).setWidth 32 then .ok i else .error .nonzeroUnusedField

/-- Format N (R81): no register field. -/
def formatN (w : CmdWord) (i : Instr) : Except DecodeReject Instr := underMask 0xFFFFFFFF#32 w i

/-- Format D (R81): `rd`. -/
def formatD (w : CmdWord) (f : Reg → Instr) : Except DecodeReject Instr :=
  underMask 0xFFFF00FF#32 w (f (rdField w))

/-- Format DS (R81): `rd`, `rs1`. -/
def formatDS (w : CmdWord) (f : Reg → Reg → Instr) : Except DecodeReject Instr :=
  underMask 0xFF0000FF#32 w (f (rdField w) (rs1Field w))

/-- Format DST (R81): `rd`, `rs1`, `rs2`. -/
def formatDST (w : CmdWord) (f : Reg → Reg → Reg → Instr) : Except DecodeReject Instr :=
  underMask 0x000000FF#32 w (f (rdField w) (rs1Field w) (rs2Field w))

/-- Format S (R81): `rs1`. -/
def formatS (w : CmdWord) (f : Reg → Instr) : Except DecodeReject Instr :=
  underMask 0xFF00FFFF#32 w (f (rs1Field w))

/-- Format SS (R81): `rs1`, `rs2`. -/
def formatSS (w : CmdWord) (f : Reg → Reg → Instr) : Except DecodeReject Instr :=
  underMask 0x0000FFFF#32 w (f (rs1Field w) (rs2Field w))

/-- The decoder, total on every 32-bit word: R84's opcode and must-be-zero checks over the opcode map R85. The third
check of R84, the register range, depends on `NREG` and is made by the command's rule
(`Sys2Proof.Machine.State.command`). -/
def decodeWord (w : CmdWord) : Except DecodeReject Instr :=
  match (opField w).toNat with
  | 0x00 => formatN w .nop
  | 0x01 => formatD w .ldi
  | 0x02 => formatDS w .copy
  | 0x03 => formatDS w .move
  | 0x04 => formatD w .resize
  | 0x05 => formatS w .rdlimb
  | 0x06 => formatD w .wrlimb
  | 0x07 => formatS w .len
  | 0x08 => formatS w .cap
  | 0x09 => formatS w .bitlen
  | 0x10 => formatDST w .addm
  | 0x11 => formatDST w .subm
  | 0x12 => formatSS w .cmpm
  | 0x20 => formatDST w .mul
  | 0x21 => formatDST w .muls
  | 0x22 => formatDST w .mulk
  | 0x23 => formatDST w .mulf
  | 0x30 => formatDST w .div
  | 0x31 => formatDST w .mod
  | 0x40 => formatDST w .and
  | 0x41 => formatDST w .or
  | 0x42 => formatDST w .xor
  | 0x43 => formatDS w .shl
  | 0x44 => formatDS w .shr
  | 0x50 => formatDST w .add
  | 0x51 => formatDST w .sub
  | 0x52 => formatDS w .neg
  | 0x53 => formatDS w .abs
  | 0x54 => formatSS w .cmp
  | 0x55 => formatS w .iszero
  | 0x56 => formatS w .isneg
  | _ => .error .unassignedOpcode

/-- The register fields that the command's format uses, in the order `rd`, `rs1`, `rs2` (R81, R84). -/
def usedRegs : Instr → List Reg
  | .nop => []
  | .ldi rd => [rd]
  | .copy rd rs1 => [rd, rs1]
  | .move rd rs1 => [rd, rs1]
  | .resize rd => [rd]
  | .rdlimb rs1 => [rs1]
  | .wrlimb rd => [rd]
  | .len rs1 => [rs1]
  | .cap rs1 => [rs1]
  | .bitlen rs1 => [rs1]
  | .addm rd rs1 rs2 => [rd, rs1, rs2]
  | .subm rd rs1 rs2 => [rd, rs1, rs2]
  | .cmpm rs1 rs2 => [rs1, rs2]
  | .mul rd rs1 rs2 => [rd, rs1, rs2]
  | .muls rd rs1 rs2 => [rd, rs1, rs2]
  | .mulk rd rs1 rs2 => [rd, rs1, rs2]
  | .mulf rd rs1 rs2 => [rd, rs1, rs2]
  | .div rd rs1 rs2 => [rd, rs1, rs2]
  | .mod rd rs1 rs2 => [rd, rs1, rs2]
  | .and rd rs1 rs2 => [rd, rs1, rs2]
  | .or rd rs1 rs2 => [rd, rs1, rs2]
  | .xor rd rs1 rs2 => [rd, rs1, rs2]
  | .shl rd rs1 => [rd, rs1]
  | .shr rd rs1 => [rd, rs1]
  | .add rd rs1 rs2 => [rd, rs1, rs2]
  | .sub rd rs1 rs2 => [rd, rs1, rs2]
  | .neg rd rs1 => [rd, rs1]
  | .abs rd rs1 => [rd, rs1]
  | .cmp rs1 rs2 => [rs1, rs2]
  | .iszero rs1 => [rs1]
  | .isneg rs1 => [rs1]

/-- The register range check of R84 and R221: every used field is below `NREG`. -/
def registersInRange (nreg : Nat) (i : Instr) : Bool :=
  (usedRegs i).all fun r => decide (r.toNat < nreg)

/-- `word = op | (rd << 8) | (rs1 << 16) | (rs2 << 24)` (R80). -/
def packWord (op : BitVec 8) (rd rs1 rs2 : Reg) : CmdWord :=
  op.setWidth 32 ||| rd.setWidth 32 <<< 8 ||| rs1.setWidth 32 <<< 16 ||| rs2.setWidth 32 <<< 24

/-- The encoder: the word of a command, every unused field zero (R80, R81, R85). -/
def encode : Instr → CmdWord
  | .nop => packWord 0x00#8 0 0 0
  | .ldi rd => packWord 0x01#8 rd 0 0
  | .copy rd rs1 => packWord 0x02#8 rd rs1 0
  | .move rd rs1 => packWord 0x03#8 rd rs1 0
  | .resize rd => packWord 0x04#8 rd 0 0
  | .rdlimb rs1 => packWord 0x05#8 0 rs1 0
  | .wrlimb rd => packWord 0x06#8 rd 0 0
  | .len rs1 => packWord 0x07#8 0 rs1 0
  | .cap rs1 => packWord 0x08#8 0 rs1 0
  | .bitlen rs1 => packWord 0x09#8 0 rs1 0
  | .addm rd rs1 rs2 => packWord 0x10#8 rd rs1 rs2
  | .subm rd rs1 rs2 => packWord 0x11#8 rd rs1 rs2
  | .cmpm rs1 rs2 => packWord 0x12#8 0 rs1 rs2
  | .mul rd rs1 rs2 => packWord 0x20#8 rd rs1 rs2
  | .muls rd rs1 rs2 => packWord 0x21#8 rd rs1 rs2
  | .mulk rd rs1 rs2 => packWord 0x22#8 rd rs1 rs2
  | .mulf rd rs1 rs2 => packWord 0x23#8 rd rs1 rs2
  | .div rd rs1 rs2 => packWord 0x30#8 rd rs1 rs2
  | .mod rd rs1 rs2 => packWord 0x31#8 rd rs1 rs2
  | .and rd rs1 rs2 => packWord 0x40#8 rd rs1 rs2
  | .or rd rs1 rs2 => packWord 0x41#8 rd rs1 rs2
  | .xor rd rs1 rs2 => packWord 0x42#8 rd rs1 rs2
  | .shl rd rs1 => packWord 0x43#8 rd rs1 0
  | .shr rd rs1 => packWord 0x44#8 rd rs1 0
  | .add rd rs1 rs2 => packWord 0x50#8 rd rs1 rs2
  | .sub rd rs1 rs2 => packWord 0x51#8 rd rs1 rs2
  | .neg rd rs1 => packWord 0x52#8 rd rs1 0
  | .abs rd rs1 => packWord 0x53#8 rd rs1 0
  | .cmp rs1 rs2 => packWord 0x54#8 0 rs1 rs2
  | .iszero rs1 => packWord 0x55#8 0 rs1 0
  | .isneg rs1 => packWord 0x56#8 0 rs1 0

/-- The command word in a 64-bit write to `CMD`: bits 31:0; bits 63:32 are ignored (R51, R87). -/
def commandOfWrite (v : Word) : CmdWord := v.setWidth 32

/-- The instruction that the decoder reads from a table word: the word is what a write to `CMD` carries. -/
def decodeTableWord (nbits w : Nat) : Option Instr :=
  (decodeWord (commandOfWrite (BitVec.ofNat 64 (w % 2 ^ nbits)))).toOption

end Sys2Proof
end

