-- ==== Sys2Proof/Machine/Assembly.lean ====
section
/-! DEFINITION. What the host sends: window accesses (spec/20_memory.md R54, R55), the statements of the host
assembly and its pseudo-instructions (spec/30_encoding.md R88, R89), and the events of a schedule (spec/00_scope.md
R8; spec/20_memory.md R62, R67; spec/70_reset_and_hazards.md R250). -/

namespace Sys2Proof.Machine

/-- The named registers of the window (R54). -/
inductive WindowReg where
  | cmd | arg0 | arg1 | result | status | param | maxLimbs | fftThreshold | errCmd
  deriving DecidableEq, Repr

/-- A register's offset from `BASE` (R54). -/
def WindowReg.offset : WindowReg → Nat
  | .cmd => 0x00
  | .arg0 => 0x08
  | .arg1 => 0x10
  | .result => 0x18
  | .status => 0x20
  | .param => 0x28
  | .maxLimbs => 0x30
  | .fftThreshold => 0x38
  | .errCmd => 0x40

/-- The register at an offset; `none` at every other offset of the window, which is reserved or misaligned (R54,
R55, R60). -/
def windowRegAt (offset : Nat) : Option WindowReg :=
  match offset with
  | 0x00 => some .cmd
  | 0x08 => some .arg0
  | 0x10 => some .arg1
  | 0x18 => some .result
  | 0x20 => some .status
  | 0x28 => some .param
  | 0x30 => some .maxLimbs
  | 0x38 => some .fftThreshold
  | 0x40 => some .errCmd
  | _ => none

/-- One host access on the bus: an address, a width in bytes and, for a write, the data word. Any address and any
width can be sent; R55 says which the window answers. DESIGN CHOICE (log 13): addresses are natural numbers, and a write
carries 64 data bits whatever its width. -/
inductive Access where
  | read (addr width : Nat)
  | write (addr width : Nat) (data : Word)
  deriving DecidableEq, Repr

/-- The address an access starts at. -/
def Access.addr : Access → Nat
  | .read a _ => a
  | .write a _ _ => a

/-- A statement of the host assembly (R88). -/
inductive HostStmt where
  /-- `<MNEMONIC> <operands>` -/
  | command (i : Instr)
  /-- `cmd <imm>`: a raw command word -/
  | cmd (imm : Int)
  /-- `arg0 <imm>` -/
  | arg0 (imm : Int)
  /-- `arg1 <imm>` -/
  | arg1 (imm : Int)
  /-- `wait`: poll `STATUS` until `BUSY` is 0 -/
  | wait
  /-- `read <name>` -/
  | read (r : WindowReg)
  /-- `clrflags` -/
  | clrflags
  /-- `<label>:` -/
  | label (name : String)
  /-- `bnz <label>` -/
  | bnz (name : String)
  deriving DecidableEq, Repr

/-- A `read` statement. -/
def HostStmt.isRead : HostStmt → Bool
  | .read _ => true
  | .command _ | .cmd _ | .arg0 _ | .arg1 _ | .wait | .clrflags | .label _ | .bnz _ => false

/-- The pseudo-instructions (R89). -/
inductive Pseudo where
  | li (rd : Reg) (imm : Int)
  | clr (rd : Reg)
  | mov (rd rs : Reg)
  | resize (rd : Reg) (n : Int)
  | wrl (rd : Reg) (j v : Int)
  | rdl (rs : Reg) (j : Int)
  | shli (rd rs : Reg) (k : Int)
  | shri (rd rs : Reg) (k : Int)
  | divmod (rq rr ra rb : Reg)
  | sync
  deriving DecidableEq, Repr

/-- The conditions of R89's table: `li` takes a signed 64-bit value, `divmod` a quotient register that is neither
source nor the remainder's. -/
def Pseudo.wellFormed : Pseudo → Bool
  | .li _ imm => decide (-(2 ^ 63) ≤ imm) && decide (imm < 2 ^ 63)
  | .divmod rq rr ra rb => rq != ra && rq != rb && rq != rr
  | .clr _ | .mov _ _ | .resize _ _ | .wrl _ _ _ | .rdl _ _ | .shli _ _ _ | .shri _ _ _ | .sync => true

/-- The expansions of R89. -/
def Pseudo.expand : Pseudo → List HostStmt
  | .li rd imm => [.wait, .arg0 imm, .command (.ldi rd)]
  | .clr rd => [.wait, .arg0 0, .command (.ldi rd)]
  | .mov rd rs => [.wait, .command (.copy rd rs)]
  | .resize rd n => [.wait, .arg0 n, .command (.resize rd)]
  | .wrl rd j v => [.wait, .arg0 j, .arg1 v, .command (.wrlimb rd)]
  | .rdl rs j => [.wait, .arg0 j, .command (.rdlimb rs), .wait, .read .result]
  | .shli rd rs k => [.wait, .arg0 k, .command (.shl rd rs)]
  | .shri rd rs k => [.wait, .arg0 k, .command (.shr rd rs)]
  | .divmod rq rr ra rb => [.wait, .command (.div rq ra rb), .wait, .command (.mod rr ra rb)]
  | .sync => [.wait]

/-- The position of the statement after a label (R88: a label names the position of the next statement). DESIGN CHOICE
(log 15): where a label stands more than once, its first occurrence is the one meant. -/
def labelTarget (name : String) : List HostStmt → Option Nat
  | [] => none
  | st :: rest => if st = .label name then some 1 else (labelTarget name rest).map (· + 1)

/-- Every `bnz` of a host program names a label that stands in it. -/
def branchesResolve (program : List HostStmt) : Bool :=
  program.all fun st =>
    match st with
    | .bnz name => (labelTarget name program).isSome
    | _ => true

/-- One entry of a schedule: who steps next. -/
inductive Event where
  /-- The host program's next statement (R8, R33). -/
  | host
  /-- An access that does not come from the host program: any access shape, or another master's access (R55, R67). -/
  | access (a : Access)
  /-- The engine's step: it completes the pending command, if there is one (R52). -/
  | engine
  /-- The platform asserts reset (R250). -/
  | reset
  deriving DecidableEq, Repr

end Sys2Proof.Machine
end

