-- ==== Sys2Proof/Machine/State.lean ====
section
/-! DEFINITION. The state of the block and its host as plain data (spec/10_state.md), the reasons a step can stop, and
the reset state (spec/10_state.md R37). The block has no byte memory: its two address spaces (spec/20_memory.md R50) are
the register window, a view of the fields below, and the limb store, the `limbs` of the registers. -/

namespace Sys2Proof.Machine

/-- One BigInt register (R21). `len` is the length of `limbs`; storage above the length is not architectural and is not
held (R24; DEDUCED, log 3). -/
structure BigReg where
  /-- True iff the value is strictly negative. -/
  sign : Bool
  /-- The limbs of the value, least significant first. -/
  limbs : List Word
  /-- The allocated storage length, in limbs. -/
  cap : Nat
  deriving DecidableEq, Repr

/-- The errors a command can complete with (R220). The codes 0, 1, 3 and 8 to 15 of `STATUS.ERR` are no error: 0 is
success, the others are never produced. -/
inductive ErrCode where
  | divisionByZero
  | illegalCommand
  | badRegister
  | capacityExceeded
  | magnitudeOrder
  deriving DecidableEq, Repr

/-- The algorithm that the last successful multiply applied at the top level (R29, R141). -/
inductive MulPath where
  | zeroOperand
  | schoolbook
  | karatsuba
  | fft
  deriving DecidableEq, Repr

/-- The host and its program (R33, R88): the model's own record of an agent that the spec describes outside the
block. -/
structure HostSide where
  /-- The program: the host's ordered sequence of statements. -/
  program : List HostStmt
  /-- The position of the next statement. -/
  pos : Nat
  /-- The value returned by the most recent `read` statement, which `bnz` tests; `none` before the first one. -/
  lastRead : Option Word
  deriving DecidableEq, Repr

/-- Why the machine stops with a fault. No command and no window access faults; only the host program's own control
flow can. -/
inductive Fault where
  /-- Raised by the host statement `bnz` when no `read` came before it: R88 gives it no value to test. Safe: the model
  stops where the spec gives no behaviour (log 8). -/
  | branchBeforeRead
  /-- Raised by the host statement `bnz` when its label stands nowhere in the program. Safe: the spec gives no target
  (log 8). -/
  | unknownLabel (name : String)
  deriving DecidableEq, Repr

/-- Why a step is refused. -/
inductive Refusal where
  /-- Raised by `exec` for an instruction that has no meaning yet. Safe. -/
  | notModelled (mnemonic : String)
  /-- Raised by a host access whose address lies outside the window: it belongs to the platform, whose behaviour the
  spec does not give (R60). Safe (log 7). -/
  | platformAddress (addr : Nat)
  deriving DecidableEq, Repr

/-- The whole state. -/
structure State where
  /-- The instance's parameters, constant for its life (R6, R30). -/
  params : Params
  /-- The BigInt register file, `R[0]` first (R20). -/
  regs : List BigReg
  /-- `ARG0` (R28). -/
  arg0 : Word
  /-- `ARG1` (R28). -/
  arg1 : Word
  /-- `RESULT` (R28). -/
  result : Word
  /-- `STATUS.ERR`; `none` is code 0 (R29). -/
  err : Option ErrCode
  /-- `STATUS.STICKY_ERR` (R29). -/
  stickyErr : Bool
  /-- `STATUS.CMDLOST` (R29). -/
  cmdLost : Bool
  /-- `STATUS.MULPATH` (R29). -/
  mulPath : MulPath
  /-- `ERRCMD` (R31). -/
  errCmd : Word
  /-- The pending command (R32). `STATUS.BUSY` is hardwired to the engine's state (R29): it is 1 exactly while a
  command is pending (DEDUCED, log 11). -/
  pending : Option CmdWord
  /-- The host and its program. -/
  host : HostSide
  /-- Who steps next, in order: the interleaving of host accesses, completions and resets is an input (R62, R67,
  R228; DESIGN CHOICE, log 2). -/
  schedule : List Event
  /-- The values that the window has returned to reads, the latest first: what the host has observed
  (the model's own field, log 5). -/
  readLog : List Word
  deriving DecidableEq, Repr

/-- The source's zero value, "empty buffer, zero length, false sign", with capacity 0 (R37, R103). -/
def BigReg.zero : BigReg := { sign := false, limbs := [], cap := 0 }

/-- The reset state of the instance with parameters `p` (R37, R250), with no host program and nothing scheduled
(DESIGN CHOICE, log 5: how a program comes to run). -/
def State.resetOf (p : Params) : State :=
  { params := p
    regs := List.replicate p.nreg BigReg.zero
    arg0 := 0
    arg1 := 0
    result := 0
    err := none
    stickyErr := false
    cmdLost := false
    mulPath := .zeroOperand
    errCmd := 0
    pending := none
    host := { program := [], pos := 0, lastRead := none }
    schedule := []
    readLog := [] }

/-- The machine right after reset: the reference instance (R7, R37; log 1). -/
def State.reset : State := State.resetOf Params.reference

end Sys2Proof.Machine
end

