-- ==== Sys2Proof/Machine/Limbs.lean ====
section
/-! DEFINITION. Limb sequences, their magnitude, and the normalizer (spec/00_scope.md R12, R13; spec/20_memory.md R56,
R57; spec/40_limb_store.md R101). A limb list holds its least significant limb first. -/

namespace Sys2Proof.Machine

/-- `bitlen` of a nonnegative integer: 0 for 0, else the least `k` with `x < 2^k` (R12). -/
def bitlen (x : Nat) : Nat := if x = 0 then 0 else Nat.log2 x + 1

/-- `clz64`: the number of leading zero bits of a limb (R12). -/
def clz64 (v : Word) : Nat := 64 - bitlen v.toNat

/-- The number of limbs of a magnitude, `ceil(bitlen / 64)` (R13, R26). -/
def limbLen (x : Nat) : Nat := (bitlen x + 63) / 64

/-- The magnitude of a limb sequence: limb `j` has weight `2^(64 j)` (R12, R56). -/
def mag : List Word → Nat
  | [] => 0
  | x :: xs => x.toNat + 2 ^ 64 * mag xs

/-- The low `n` limbs of a magnitude: limb `j` is bits `64j + 63` to `64j` (R13). -/
def limbsOf : Nat → Nat → List Word
  | 0, _ => []
  | n + 1, x => BitVec.ofNat 64 x :: limbsOf n (x / 2 ^ 64)

/-- The canonical limb sequence of a magnitude (R13). -/
def toLimbs (x : Nat) : List Word := limbsOf (limbLen x) x

/-- Limb `j` of a limb sequence; 0 at and above its length (R57). -/
def limbAt (a : List Word) (j : Nat) : Word := if j < a.length then a.getD j 0#64 else 0#64

/-- A limb sequence extended with zero limbs to at least `n` limbs. -/
def pad (n : Nat) (a : List Word) : List Word := a ++ List.replicate (n - a.length) 0#64

/-- `strip_leading_zeros` on the limbs: drop every zero high limb (R101). -/
def stripZeros : List Word → List Word
  | [] => []
  | x :: xs =>
    match stripZeros xs with
    | [] => if x = 0#64 then [] else [x]
    | y :: ys => x :: y :: ys

/-- The normalizer on a raw sign and limb sequence: no zero high limb, and sign 0 for the value 0 (R101). -/
def normalizeRaw (sign : Bool) (limbs : List Word) : Bool × List Word :=
  (if stripZeros limbs = [] then false else sign, stripZeros limbs)

/-- The integer that a sign and a magnitude denote (R13). -/
def signedVal (sign : Bool) (m : Nat) : Int := if sign then -(m : Int) else (m : Int)

/-- A register's logical length (R21). -/
def BigReg.len (r : BigReg) : Nat := r.limbs.length

/-- The integer a register denotes (R13). -/
def BigReg.val (r : BigReg) : Int := signedVal r.sign (mag r.limbs)

/-- `canon(x)` with a capacity: the unique normalized record that denotes `x` (R13). -/
def canon (x : Int) (cap : Nat) : BigReg :=
  { sign := decide (x < 0), limbs := toLimbs x.natAbs, cap := cap }

end Sys2Proof.Machine
end

