-- ==== Sys2Proof/Machine/Kernels.lean ====
section
/-! DEFINITION. The limb algorithms of the engine: the magnitude kernels (spec/41_magnitude.md R126 to R128), schoolbook
and Karatsuba multiplication (spec/42_multiply.md R146, R147), binary long division (spec/43_divide.md R160), the
two's-complement buffers (spec/44_bitwise.md R180), the shift decomposition (R188) and sign-magnitude addition
(spec/45_signed.md R207). -/

namespace Sys2Proof.Machine

/-- Lexicographic compare of two limb sequences of one length, most significant limb first (R126). -/
def compareDown : List Word → List Word → Ordering
  | x :: xs, y :: ys => if x = y then compareDown xs ys else if x.toNat > y.toNat then .gt else .lt
  | _, _ => .eq

/-- `cmp_mag`: the longer length wins, else the limbs decide from the most significant down (R126). -/
def cmpMag (a b : List Word) : Ordering :=
  if a.length = b.length then compareDown a.reverse b.reverse
  else if a.length > b.length then .gt else .lt

/-- The ripple-carry loop over two sequences of one length; the last limb is the final carry (R127). -/
def rippleAdd : List Word → List Word → Nat → List Word
  | x :: xs, y :: ys, c =>
    BitVec.ofNat 64 (x.toNat + y.toNat + c) :: rippleAdd xs ys ((x.toNat + y.toNat + c) / 2 ^ 64)
  | _, _, c => [BitVec.ofNat 64 c]

/-- `add_mag`: ripple carry with one extra limb, then normalized (R127). -/
def addMag (a b : List Word) : List Word :=
  stripZeros (rippleAdd (pad (max a.length b.length) a) (pad (max a.length b.length) b) 0)

/-- The ripple-borrow loop over the minuend's limbs (R128): limb `trunc_64(t)` and borrow `t < 0`, for
`t = x - y - br`. -/
def rippleSub : List Word → List Word → Nat → List Word
  | x :: xs, y :: ys, br =>
    BitVec.ofInt 64 ((x.toNat : Int) - y.toNat - br) ::
      rippleSub xs ys (if (x.toNat : Int) - y.toNat - br < 0 then 1 else 0)
  | _, _, _ => []

/-- `sub_mag`: ripple borrow, then normalized. R128 defines it only when `mag a ≥ mag b`; every caller checks that
first. -/
def subMag (a b : List Word) : List Word := stripZeros (rippleSub a (pad a.length b) 0)

/-- One row of the schoolbook loop (R146): add `x * b` into the output from its first limb on, and put the last carry
into the limb above. -/
def mulRow (x : Word) : List Word → List Word → Nat → List Word
  | y :: ys, o :: os, c =>
    BitVec.ofNat 64 (o.toNat + x.toNat * y.toNat + c) ::
      mulRow x ys os ((o.toNat + x.toNat * y.toNat + c) / 2 ^ 64)
  | [], _ :: os, c => BitVec.ofNat 64 c :: os
  | _, [], _ => []

/-- The rows of the schoolbook loop (R146): row `i` works on the output from limb `i` on and leaves limb `i` final. -/
def mulRows (b : List Word) : List Word → List Word → List Word
  | [], out => out
  | x :: xs, out =>
    match mulRow x b out 0 with
    | [] => []
    | o :: os => o :: mulRows b xs os

/-- `school`: the schoolbook product, normalized (R146). -/
def school (a b : List Word) : List Word :=
  stripZeros (mulRows b a (List.replicate (a.length + b.length) 0#64))

/-- A normalized magnitude times `2^(64 k)`: a limb-shifted operand of the Karatsuba recombination (R147). -/
def shiftLimbs (k : Nat) (a : List Word) : List Word := if a = [] then [] else List.replicate k 0#64 ++ a

/-- `kara` (R147) with base case `base`. The first argument bounds the recursion's depth; the product's size `n` is
enough (each sub-product is smaller), and at bound 0 the schoolbook product is taken, which gives the same magnitude (DEDUCED,
log 4). -/
def kara (base : Nat) : Nat → List Word → List Word → List Word
  | 0, a, b => school a b
  | fuel + 1, a, b =>
    let n := max a.length b.length
    if n ≤ base then school a b
    else
      let k := n / 2
      let kmul := fun (x y : List Word) => if x = [] ∨ y = [] then [] else kara base fuel x y
      let a0 := stripZeros ((pad n a).take k)
      let a1 := stripZeros ((pad n a).drop k)
      let b0 := stripZeros ((pad n b).take k)
      let b1 := stripZeros ((pad n b).drop k)
      let z0 := kmul a0 b0
      let z2 := kmul a1 b1
      let z1 := subMag (subMag (kmul (addMag a0 a1) (addMag b0 b1)) z0) z2
      addMag (addMag (shiftLimbs (2 * k) z2) (shiftLimbs k z1)) z0

/-- The product's magnitude by the path that the dispatcher took (R140, R146 to R148). The FFT path's internals are not
architectural; its output is the exact product (R148; DEDUCED, log 4). -/
def productMag (base : Nat) (path : MulPath) (a b : List Word) : Nat :=
  match path with
  | .zeroOperand => 0
  | .schoolbook => mag (school a b)
  | .karatsuba => mag (kara base (max a.length b.length) a b)
  | .fft => mag a * mag b

/-- The loop of R160 for `i = s` down to 0, on the shifted divisor `d`, the quotient `q` and the partial remainder
`r`. -/
def divLoop : Nat → Nat → Nat → Nat → Nat × Nat
  | 0, d, q, r => if d ≤ r then (q + 2 ^ 0, r - d) else (q, r)
  | i + 1, d, q, r => if d ≤ r then divLoop i (d >>> 1) (q + 2 ^ (i + 1)) (r - d) else divLoop i (d >>> 1) q r

/-- `divmod_mag`: quotient and remainder by binary long division (R160), for a divisor that is not 0. -/
def divmodMag (a b : Nat) : Nat × Nat :=
  if a < b then (0, a) else divLoop (bitlen a - bitlen b) (b <<< (bitlen a - bitlen b)) 0 a

/-- Add 1 across a buffer; the carry out of its top limb is dropped (R180). -/
def incBuffer : List Word → List Word
  | [] => []
  | x :: xs => if x + 1#64 = 0#64 then 0#64 :: incBuffer xs else (x + 1#64) :: xs

/-- `to_tc`: an operand as an `n`-limb two's-complement buffer (R180). -/
def toTc (n : Nat) (r : BigReg) : List Word :=
  if r.sign then incBuffer ((pad n r.limbs).map fun x => ~~~x) else pad n r.limbs

/-- The common logical body (R184): combine the two buffers limb by limb and convert a negative result back, the carry
out of the top limb kept. -/
def logicalVal (op : Word → Word → Word) (signOp : Bool → Bool → Bool) (a b : BigReg) : Int :=
  let n := max a.len b.len
  if n = 0 then 0
  else
    let r := List.zipWith op (toTc n a) (toTc n b)
    if signOp a.sign b.sign then -((2 ^ (64 * n) : Int) - mag r) else mag r

/-- The merge loop of `shl_mag` (R188): `prev` is the limb below, 0 for limb 0. No 64-bit shift by 64 is formed. -/
def shlMerge (t : Nat) : Word → List Word → List Word
  | prev, [] => [if t = 0 then 0#64 else prev >>> (64 - t)]
  | prev, x :: xs => (x <<< t ||| (if t = 0 then 0#64 else prev >>> (64 - t))) :: shlMerge t x xs

/-- `shl_mag`: whole limbs, then bits within limbs (R188). -/
def shlMag (a : List Word) (k : Nat) : List Word :=
  stripZeros (List.replicate (k / 64) 0#64 ++ shlMerge (k % 64) 0#64 a)

/-- The merge loop of `shr_mag` (R188). -/
def shrMerge (t : Nat) : List Word → List Word
  | [] => []
  | x :: xs => (x >>> t ||| (if t = 0 then 0#64 else xs.headD 0#64 <<< (64 - t))) :: shrMerge t xs

/-- `shr_mag`: whole limbs, then bits within limbs (R188). -/
def shrMag (a : List Word) (k : Nat) : List Word :=
  if k / 64 ≥ a.length then [] else stripZeros (shrMerge (k % 64) (a.drop (k / 64)))

/-- `add_signed`: sign-magnitude addition of two magnitudes under the signs `sa` and `sb` (R207). -/
def addSigned (a : List Word) (sa : Bool) (b : List Word) (sb : Bool) : Int :=
  if sa = sb then signedVal sa (mag (addMag a b))
  else
    match cmpMag a b with
    | .eq => 0
    | .gt => signedVal sa (mag (subMag a b))
    | .lt => signedVal sb (mag (subMag b a))

end Sys2Proof.Machine
end

