-- ==== Sys2Proof/Machine/Flags.lean ====
section
/-! DEFINITION. The flags: the error codes and the STATUS word (spec/10_state.md R29, R36; spec/60_exceptions.md R220), the
parameter registers (R30), the path that a multiply reports (spec/42_multiply.md R141, R150), and the comparison results
(spec/41_magnitude.md R122; spec/45_signed.md R204). -/

namespace Sys2Proof.Machine

/-- `STATUS.BUSY`: a command is pending (R29, R52). -/
def State.busy (s : State) : Bool := s.pending.isSome

/-- The error numbers of R220. -/
def errNumber : Option ErrCode → BitVec 4
  | none => 0
  | some .divisionByZero => 2
  | some .illegalCommand => 4
  | some .badRegister => 5
  | some .capacityExceeded => 6
  | some .magnitudeOrder => 7

/-- The `MULPATH` numbers of R29. -/
def mulPathNumber : MulPath → BitVec 2
  | .zeroOperand => 0
  | .schoolbook => 1
  | .karatsuba => 2
  | .fft => 3

/-- The `STATUS` word: bits 13:12 `MULPATH`, 9 `CMDLOST`, 8 `STICKY_ERR`, 7:4 `ERR`, 0 `BUSY`; the rest reads 0 (R29). -/
def State.statusWord (s : State) : Word :=
  0#50 ++ mulPathNumber s.mulPath ++ 0#2 ++ BitVec.ofBool s.cmdLost ++ BitVec.ofBool s.stickyErr ++
    errNumber s.err ++ 0#3 ++ BitVec.ofBool s.busy

/-- The `PARAM` word: bits 39:32 spec version 1, 31:16 `SCHOOLBOOK_MAX_LIMBS`, 15:0 `NREG` (R30). -/
def State.paramWord (s : State) : Word :=
  0#24 ++ 1#8 ++ BitVec.ofNat 16 s.params.schoolbookMax ++ BitVec.ofNat 16 s.params.nreg

/-- The dispatcher of MUL by product size (R150). -/
def dispatchPath (p : Params) (n : Nat) : MulPath :=
  if n ≤ p.schoolbookMax then .schoolbook else if n ≤ p.fftThreshold then .karatsuba else .fft

/-- The path of MULK by product size (R141, R144). -/
def forcedKaratsubaPath (p : Params) (n : Nat) : MulPath :=
  if n ≤ p.schoolbookMax then .schoolbook else .karatsuba

/-- A comparison result in `RESULT`: `trunc_64` of -1, 0 or +1 (R122, R204). -/
def orderWord : Ordering → Word
  | .lt => 0xFFFFFFFFFFFFFFFF#64
  | .eq => 0
  | .gt => 1

/-- A Boolean result in `RESULT` (R205, R206). -/
def boolWord (b : Bool) : Word := if b then 1 else 0

/-- The signed comparison of R204: the signs first, then the magnitudes. -/
def cmpSigned (a b : BigReg) : Ordering :=
  if a.sign != b.sign then (if a.sign then .lt else .gt)
  else if a.sign then (cmpMag a.limbs b.limbs).swap
  else cmpMag a.limbs b.limbs

end Sys2Proof.Machine
end

