-- ==== Sys2Proof/Machine/Operands.lean ====
section
/-! DEFINITION. The operand forms: register operands (spec/30_encoding.md R83) and the scalar operands, all taken from
ARG0 and ARG1 at completion (R82). -/

namespace Sys2Proof.Machine

/-- `R[r]`, read as a whole record (R12, R83). -/
def State.reg (s : State) (r : Reg) : BigReg := s.regs.getD r.toNat BigReg.zero

/-- `LimbRead(i, j)`: limb `j` of register `i`, 0 at and above its length (R57). -/
def State.limbRead (s : State) (r : Reg) (j : Nat) : Word := limbAt (s.reg r).limbs j

/-- LDI's value: `sext_64(ARG0)`. -/
def State.signedOperand (s : State) : Int := s.arg0.toInt

/-- RESIZE's capacity: `zext_64(ARG0)`. -/
def State.sizeOperand (s : State) : Nat := s.arg0.toNat

/-- RDLIMB's and WRLIMB's limb index: `zext_64(ARG0)`. -/
def State.indexOperand (s : State) : Nat := s.arg0.toNat

/-- WRLIMB's limb data: `ARG1`. -/
def State.dataOperand (s : State) : Word := s.arg1

/-- SHL's and SHR's amount in bits: `zext_64(ARG0)`. -/
def State.shiftOperand (s : State) : Nat := s.arg0.toNat

end Sys2Proof.Machine
end

