-- ==== Sys2Proof/Machine/Ops.lean ====
section
/-! DEFINITION. The shared operations of the commands: writing a register and RESULT (spec/10_state.md R26, R28), and the
two completions, the failing one being what this block has for taking an exception (spec/60_exceptions.md R221 to R225). -/

namespace Sys2Proof.Machine

/-- What a command's rule does to the state, or the error it raises. -/
abbrev Rule := State → Except ErrCode State

/-- Replace register `r` as a whole; no other register changes (R25). -/
def State.setReg (s : State) (r : Reg) (v : BigReg) : State := { s with regs := s.regs.set r.toNat v }

/-- `RESULT <- v` (R28). -/
def State.setResult (s : State) (v : Word) : State := { s with result := v }

/-- `STATUS.MULPATH <- p` (R141). -/
def State.setMulPath (s : State) (p : MulPath) : State := { s with mulPath := p }

/-- The write-back rule `R[d] <- x` (R26): CapacityExceeded when the value is too long, else the canonical record with
capacity `max(cap, L)`. -/
def State.writeBack (s : State) (d : Reg) (x : Int) : Except ErrCode State :=
  if limbLen x.natAbs > s.params.maxLimbs then .error .capacityExceeded
  else .ok (s.setReg d (canon x (max (s.reg d).cap (limbLen x.natAbs))))

/-- Successful completion (R223): `ERR <- 0`, `BUSY <- 0`. -/
def State.complete (s : State) : State := { s with err := none, pending := none }

/-- Failing completion (R224): nothing but `ERR`, `STICKY_ERR`, `ERRCMD` and `BUSY` changes. `w` is the failing word.
There is no handler to go to and no return from it (R225): the next command is accepted as always. -/
def State.fail (s : State) (e : ErrCode) (w : CmdWord) : State :=
  { s with err := some e, stickyErr := true, errCmd := w.setWidth 64, pending := none }

/-- Execute a decoded command by its rule: the register range check first (R84, R221, R222), then the rule; the
completion effects are those of R223 or R224. The failing word is the command's encoding, the only word that decodes to it
(DEDUCED, log 12). -/
def State.command (s : State) (i : Instr) (rule : Rule) : Host.Outcome State Fault Refusal :=
  if registersInRange s.params.nreg i then
    match rule s with
    | .ok t => .next t.complete
    | .error e => .next (s.fail e (encode i))
  else .next (s.fail .badRegister (encode i))

end Sys2Proof.Machine
end

