-- ==== Sys2Proof/Machine/Bitwise.lean ====
section
/-! DEFINITION. The bitwise and shift commands: AND, OR, XOR, SHL, SHR (spec/44_bitwise.md R180 to R188). -/

namespace Sys2Proof.Machine

/-- AND: two's-complement AND (R181). -/
def execAnd (rd rs1 rs2 : Reg) (s : State) : Host.Outcome State Fault Refusal :=
  s.command (.and rd rs1 rs2) fun s =>
    s.writeBack rd (logicalVal (fun x y => x &&& y) (fun a b => a && b) (s.reg rs1) (s.reg rs2))

/-- OR: two's-complement OR (R182). -/
def execOr (rd rs1 rs2 : Reg) (s : State) : Host.Outcome State Fault Refusal :=
  s.command (.or rd rs1 rs2) fun s =>
    s.writeBack rd (logicalVal (fun x y => x ||| y) (fun a b => a || b) (s.reg rs1) (s.reg rs2))

/-- XOR: two's-complement XOR (R183). -/
def execXor (rd rs1 rs2 : Reg) (s : State) : Host.Outcome State Fault Refusal :=
  s.command (.xor rd rs1 rs2) fun s =>
    s.writeBack rd (logicalVal (fun x y => x ^^^ y) (fun a b => a ^^ b) (s.reg rs1) (s.reg rs2))

/-- SHL: the magnitude shifted left, the sign kept (R185). A zero source gives 0 for every amount. The capacity
condition of R185 is decided from the bit length before the shifted value is formed (DEDUCED, log 14). -/
def execShl (rd rs1 : Reg) (s : State) : Host.Outcome State Fault Refusal :=
  s.command (.shl rd rs1) fun s =>
    let a := s.reg rs1
    if mag a.limbs = 0 then s.writeBack rd 0
    else if (bitlen (mag a.limbs) + s.shiftOperand + 63) / 64 > s.params.maxLimbs then .error .capacityExceeded
    else s.writeBack rd (signedVal a.sign (mag (shlMag a.limbs s.shiftOperand)))

/-- SHR: the magnitude shifted right, the sign kept, so the value rounds toward zero (R186). -/
def execShr (rd rs1 : Reg) (s : State) : Host.Outcome State Fault Refusal :=
  s.command (.shr rd rs1) fun s =>
    s.writeBack rd (signedVal (s.reg rs1).sign (mag (shrMag (s.reg rs1).limbs s.shiftOperand)))

end Sys2Proof.Machine
end

