-- ==== Sys2Proof/Machine/Divide.lean ====
section
/-! DEFINITION. The division commands: DIV, MOD (spec/43_divide.md R160 to R163). -/

namespace Sys2Proof.Machine

/-- The signed division rule: DivisionByZero first, then the zero dividend, then the magnitudes (R163). -/
def divmodSigned (a b : BigReg) : Except ErrCode (Int × Int) :=
  if b.len = 0 then .error .divisionByZero
  else if a.len = 0 then .ok (0, 0)
  else
    let d := divmodMag (mag a.limbs) (mag b.limbs)
    .ok (signedVal (a.sign ^^ b.sign) d.1, signedVal a.sign d.2)

/-- DIV: the truncating quotient (R161). -/
def execDiv (rd rs1 rs2 : Reg) (s : State) : Host.Outcome State Fault Refusal :=
  s.command (.div rd rs1 rs2) fun s =>
    match divmodSigned (s.reg rs1) (s.reg rs2) with
    | .ok qr => s.writeBack rd qr.1
    | .error e => .error e

/-- MOD: the truncating remainder (R162). -/
def execMod (rd rs1 rs2 : Reg) (s : State) : Host.Outcome State Fault Refusal :=
  s.command (.mod rd rs1 rs2) fun s =>
    match divmodSigned (s.reg rs1) (s.reg rs2) with
    | .ok qr => s.writeBack rd qr.2
    | .error e => .error e

end Sys2Proof.Machine
end

