-- ==== Sys2Proof/Machine/LimbStore.lean ====
section
/-! DEFINITION. The limb store commands: NOP, LDI, COPY, MOVE, RESIZE, RDLIMB, WRLIMB, LEN, CAP, BITLEN
(spec/40_limb_store.md R100 to R110). -/

namespace Sys2Proof.Machine

/-- NOP (R100). -/
def execNop (s : State) : Host.Outcome State Fault Refusal := s.command .nop .ok

/-- LDI: `R[rd] <- sext_64(ARG0)` (R105). -/
def execLdi (rd : Reg) (s : State) : Host.Outcome State Fault Refusal :=
  s.command (.ldi rd) fun s => s.writeBack rd s.signedOperand

/-- COPY: sign, length and limbs of the source; the capacity becomes the source's length (R102). -/
def execCopy (rd rs1 : Reg) (s : State) : Host.Outcome State Fault Refusal :=
  s.command (.copy rd rs1) fun s => .ok (s.setReg rd { s.reg rs1 with cap := (s.reg rs1).len })

/-- MOVE: the whole record goes over and the source becomes the zero value; a self-move changes nothing (R103). -/
def execMove (rd rs1 : Reg) (s : State) : Host.Outcome State Fault Refusal :=
  s.command (.move rd rs1) fun s =>
    .ok (if rd = rs1 then s else (s.setReg rd (s.reg rs1)).setReg rs1 BigReg.zero)

/-- RESIZE: grow the capacity, never shrink it (R104). -/
def execResize (rd : Reg) (s : State) : Host.Outcome State Fault Refusal :=
  s.command (.resize rd) fun s =>
    if s.sizeOperand > s.params.maxLimbs then .error .capacityExceeded
    else .ok (s.setReg rd { s.reg rd with cap := max (s.reg rd).cap s.sizeOperand })

/-- RDLIMB: `RESULT <- LimbRead(rs1, j)` (R106). -/
def execRdlimb (rs1 : Reg) (s : State) : Host.Outcome State Fault Refusal :=
  s.command (.rdlimb rs1) fun s => .ok (s.setResult (s.limbRead rs1 s.indexOperand))

/-- A limb sequence with limb `j` replaced; the limbs between its length and `j` are 0 (R107). -/
def replaceLimb (a : List Word) (j : Nat) (v : Word) : List Word := (pad (j + 1) a).set j v

/-- WRLIMB: replace one limb of the magnitude, keep the sign of a nonzero value, write back (R107). -/
def execWrlimb (rd : Reg) (s : State) : Host.Outcome State Fault Refusal :=
  s.command (.wrlimb rd) fun s =>
    if s.indexOperand ≥ s.params.maxLimbs then .error .capacityExceeded
    else
      s.writeBack rd
        (signedVal (s.reg rd).sign (mag (replaceLimb (s.reg rd).limbs s.indexOperand s.dataOperand)))

/-- LEN: `RESULT <- zext_64(len)` (R108). -/
def execLen (rs1 : Reg) (s : State) : Host.Outcome State Fault Refusal :=
  s.command (.len rs1) fun s => .ok (s.setResult (BitVec.ofNat 64 (s.reg rs1).len))

/-- CAP: `RESULT <- zext_64(cap)` (R109). -/
def execCap (rs1 : Reg) (s : State) : Host.Outcome State Fault Refusal :=
  s.command (.cap rs1) fun s => .ok (s.setResult (BitVec.ofNat 64 (s.reg rs1).cap))

/-- The bit length of a limb sequence from its length and its top limb (R110). -/
def limbsBitLength (a : List Word) : Nat :=
  if a.length = 0 then 0 else (a.length - 1) * 64 + (64 - clz64 (limbAt a (a.length - 1)))

/-- BITLEN: `RESULT <-` the bit length of the magnitude (R110). -/
def execBitlen (rs1 : Reg) (s : State) : Host.Outcome State Fault Refusal :=
  s.command (.bitlen rs1) fun s => .ok (s.setResult (BitVec.ofNat 64 (limbsBitLength (s.reg rs1).limbs)))

end Sys2Proof.Machine
end

