-- ==== Sys2Proof/Machine/Magnitude.lean ====
section
/-! DEFINITION. The magnitude kernel commands: ADDM, SUBM, CMPM (spec/41_magnitude.md R120 to R122). -/

namespace Sys2Proof.Machine

/-- ADDM: the sum of the magnitudes (R120). -/
def execAddm (rd rs1 rs2 : Reg) (s : State) : Host.Outcome State Fault Refusal :=
  s.command (.addm rd rs1 rs2) fun s => s.writeBack rd (mag (addMag (s.reg rs1).limbs (s.reg rs2).limbs))

/-- SUBM: the difference of the magnitudes; MagnitudeOrder when the minuend is the smaller (R121). -/
def execSubm (rd rs1 rs2 : Reg) (s : State) : Host.Outcome State Fault Refusal :=
  s.command (.subm rd rs1 rs2) fun s =>
    if cmpMag (s.reg rs1).limbs (s.reg rs2).limbs = .lt then .error .magnitudeOrder
    else s.writeBack rd (mag (subMag (s.reg rs1).limbs (s.reg rs2).limbs))

/-- CMPM: `RESULT <- trunc_64(cmp_mag)` (R122). -/
def execCmpm (rs1 rs2 : Reg) (s : State) : Host.Outcome State Fault Refusal :=
  s.command (.cmpm rs1 rs2) fun s =>
    .ok (s.setResult (orderWord (cmpMag (s.reg rs1).limbs (s.reg rs2).limbs)))

end Sys2Proof.Machine
end

