-- ==== Sys2Proof/Machine/Multiply.lean ====
section
/-! DEFINITION. The multiplication commands: MUL, MULS, MULK, MULF (spec/42_multiply.md R140 to R151). -/

namespace Sys2Proof.Machine

/-- The path a multiply takes: the zero short-circuit, else its path by product size (R141, R151). -/
def pathTaken (sel : Nat → MulPath) (a b : BigReg) : MulPath :=
  if a.len = 0 ∨ b.len = 0 then .zeroOperand else sel (max a.len b.len)

/-- The common multiply body, with `sel` the command's path column (R149, R151). -/
def multiplyRule (sel : Params → Nat → MulPath) (rd rs1 rs2 : Reg) : Rule := fun s =>
  let a := s.reg rs1
  let b := s.reg rs2
  let p := pathTaken (sel s.params) a b
  let m := productMag s.params.schoolbookMax p a.limbs b.limbs
  match s.writeBack rd (signedVal (a.sign ^^ b.sign) m) with
  | .ok t => .ok (t.setMulPath p)
  | .error e => .error e

/-- MUL: the product, its path chosen by size (R142, R150). -/
def execMul (rd rs1 rs2 : Reg) (s : State) : Host.Outcome State Fault Refusal :=
  s.command (.mul rd rs1 rs2) (multiplyRule dispatchPath rd rs1 rs2)

/-- MULS: the product, schoolbook forced (R143). -/
def execMuls (rd rs1 rs2 : Reg) (s : State) : Host.Outcome State Fault Refusal :=
  s.command (.muls rd rs1 rs2) (multiplyRule (fun _ _ => .schoolbook) rd rs1 rs2)

/-- MULK: the product, Karatsuba forced at every size; its base case reports schoolbook (R144). -/
def execMulk (rd rs1 rs2 : Reg) (s : State) : Host.Outcome State Fault Refusal :=
  s.command (.mulk rd rs1 rs2) (multiplyRule forcedKaratsubaPath rd rs1 rs2)

/-- MULF: the product, FFT forced (R145). -/
def execMulf (rd rs1 rs2 : Reg) (s : State) : Host.Outcome State Fault Refusal :=
  s.command (.mulf rd rs1 rs2) (multiplyRule (fun _ _ => .fft) rd rs1 rs2)

end Sys2Proof.Machine
end

