-- ==== Sys2Proof/Machine/Signed.lean ====
section
/-! DEFINITION. The signed facade commands: ADD, SUB, NEG, ABS, CMP, ISZERO, ISNEG (spec/45_signed.md R200 to R207). -/

namespace Sys2Proof.Machine

/-- ADD: the signed sum (R200). -/
def execAdd (rd rs1 rs2 : Reg) (s : State) : Host.Outcome State Fault Refusal :=
  s.command (.add rd rs1 rs2) fun s =>
    s.writeBack rd (addSigned (s.reg rs1).limbs (s.reg rs1).sign (s.reg rs2).limbs (s.reg rs2).sign)

/-- SUB: the signed difference, as the sum with the subtrahend's sign flipped (R201). -/
def execSub (rd rs1 rs2 : Reg) (s : State) : Host.Outcome State Fault Refusal :=
  s.command (.sub rd rs1 rs2) fun s =>
    s.writeBack rd (addSigned (s.reg rs1).limbs (s.reg rs1).sign (s.reg rs2).limbs (!(s.reg rs2).sign))

/-- NEG: unary negation (R202). -/
def execNeg (rd rs1 : Reg) (s : State) : Host.Outcome State Fault Refusal :=
  s.command (.neg rd rs1) fun s => s.writeBack rd (-(s.reg rs1).val)

/-- ABS: the absolute value (R203). -/
def execAbs (rd rs1 : Reg) (s : State) : Host.Outcome State Fault Refusal :=
  s.command (.abs rd rs1) fun s => s.writeBack rd (mag (s.reg rs1).limbs)

/-- CMP: the signed comparison (R204). -/
def execCmp (rs1 rs2 : Reg) (s : State) : Host.Outcome State Fault Refusal :=
  s.command (.cmp rs1 rs2) fun s => .ok (s.setResult (orderWord (cmpSigned (s.reg rs1) (s.reg rs2))))

/-- ISZERO: 1 when the length is 0 (R205). -/
def execIszero (rs1 : Reg) (s : State) : Host.Outcome State Fault Refusal :=
  s.command (.iszero rs1) fun s => .ok (s.setResult (boolWord ((s.reg rs1).len == 0)))

/-- ISNEG: the sign bit (R206). -/
def execIsneg (rs1 : Reg) (s : State) : Host.Outcome State Fault Refusal :=
  s.command (.isneg rs1) fun s => .ok (s.setResult (boolWord (s.reg rs1).sign))

end Sys2Proof.Machine
end

