-- ==== Sys2Proof/Machine/Dispatch.lean ====
section
/-! DEFINITION. One arm per command: the meaning of a decoded command (spec/30_encoding.md R84, R85). -/

namespace Sys2Proof.Machine

def exec (i : Instr) (s : State) : Host.Outcome State Fault Refusal :=
  match i with
  -- limb store and normalizer (spec/40_limb_store.md)
  | .nop => Sys2Proof.Machine.execNop s
  | .ldi rd => Sys2Proof.Machine.execLdi rd s
  | .copy rd rs1 => Sys2Proof.Machine.execCopy rd rs1 s
  | .move rd rs1 => Sys2Proof.Machine.execMove rd rs1 s
  | .resize rd => Sys2Proof.Machine.execResize rd s
  | .rdlimb rs1 => Sys2Proof.Machine.execRdlimb rs1 s
  | .wrlimb rd => Sys2Proof.Machine.execWrlimb rd s
  | .len rs1 => Sys2Proof.Machine.execLen rs1 s
  | .cap rs1 => Sys2Proof.Machine.execCap rs1 s
  | .bitlen rs1 => Sys2Proof.Machine.execBitlen rs1 s
  -- magnitude kernels (spec/41_magnitude.md)
  | .addm rd rs1 rs2 => Sys2Proof.Machine.execAddm rd rs1 rs2 s
  | .subm rd rs1 rs2 => Sys2Proof.Machine.execSubm rd rs1 rs2 s
  | .cmpm rs1 rs2 => Sys2Proof.Machine.execCmpm rs1 rs2 s
  -- multiplication (spec/42_multiply.md)
  | .mul rd rs1 rs2 => Sys2Proof.Machine.execMul rd rs1 rs2 s
  | .muls rd rs1 rs2 => Sys2Proof.Machine.execMuls rd rs1 rs2 s
  | .mulk rd rs1 rs2 => Sys2Proof.Machine.execMulk rd rs1 rs2 s
  | .mulf rd rs1 rs2 => Sys2Proof.Machine.execMulf rd rs1 rs2 s
  -- division (spec/43_divide.md)
  | .div rd rs1 rs2 => Sys2Proof.Machine.execDiv rd rs1 rs2 s
  | .mod rd rs1 rs2 => Sys2Proof.Machine.execMod rd rs1 rs2 s
  -- bitwise and shifts (spec/44_bitwise.md)
  | .and rd rs1 rs2 => Sys2Proof.Machine.execAnd rd rs1 rs2 s
  | .or rd rs1 rs2 => Sys2Proof.Machine.execOr rd rs1 rs2 s
  | .xor rd rs1 rs2 => Sys2Proof.Machine.execXor rd rs1 rs2 s
  | .shl rd rs1 => Sys2Proof.Machine.execShl rd rs1 s
  | .shr rd rs1 => Sys2Proof.Machine.execShr rd rs1 s
  -- signed facade (spec/45_signed.md)
  | .add rd rs1 rs2 => Sys2Proof.Machine.execAdd rd rs1 rs2 s
  | .sub rd rs1 rs2 => Sys2Proof.Machine.execSub rd rs1 rs2 s
  | .neg rd rs1 => Sys2Proof.Machine.execNeg rd rs1 s
  | .abs rd rs1 => Sys2Proof.Machine.execAbs rd rs1 s
  | .cmp rs1 rs2 => Sys2Proof.Machine.execCmp rs1 rs2 s
  | .iszero rs1 => Sys2Proof.Machine.execIszero rs1 s
  | .isneg rs1 => Sys2Proof.Machine.execIsneg rs1 s

end Sys2Proof.Machine
end

