-- ==== Sys2Proof/Machine/AsmText.lean ====
section
/-! DEFINITION. The host assembly's text: from lines to statements (spec/30_encoding.md R85, R88, R89). A line that is no
statement, or that breaks a condition of R89, gives `none`. DESIGN CHOICE (log 10): how words are separated, and what is refused. -/

namespace Sys2Proof.Machine

/-- The characters before the first `;` (R88: `;` starts a comment). -/
def dropComment : List Char → List Char
  | [] => []
  | c :: cs => if c = ';' then [] else c :: dropComment cs

/-- A character that separates the words of a statement. -/
def separates (c : Char) : Bool := c = ' ' || c = '\t' || c = ','

/-- The words of a line; `word` holds the current word's characters, the last one first. -/
def wordsFrom : List Char → List Char → List (List Char)
  | [], word => if word = [] then [] else [word.reverse]
  | c :: cs, word =>
    if separates c then (if word = [] then wordsFrom cs [] else word.reverse :: wordsFrom cs [])
    else wordsFrom cs (c :: word)

/-- The value of a digit below a base. -/
def digitValue (base : Nat) (c : Char) : Option Nat :=
  let n := c.toNat
  let v := if 48 ≤ n ∧ n ≤ 57 then n - 48 else if 97 ≤ n ∧ n ≤ 102 then n - 87 else if 65 ≤ n ∧ n ≤ 70 then n - 55 else base
  if v < base then some v else none

/-- The number that digits spell, after the digits already read as `acc`. -/
def digitsFrom (base : Nat) : List Char → Nat → Option Nat
  | [], acc => some acc
  | c :: cs, acc =>
    match digitValue base c with
    | some v => digitsFrom base cs (acc * base + v)
    | none => none

/-- The number that hex digits spell; `_` separates digits (R9). DESIGN CHOICE (log 10): a program's text may hold `_`, and
at every place after the `0x`. -/
def parseHex (cs : List Char) : Option Nat :=
  match cs.filter (· != '_') with
  | [] => none
  | ds => digitsFrom 16 ds 0

/-- A number: decimal or `0x` hex (R88). R9 gives the separator `_` to hex only, so a decimal number with `_` is none. -/
def parseNat (cs : List Char) : Option Nat :=
  match cs with
  | [] => none
  | '0' :: 'x' :: ds => parseHex ds
  | ds => digitsFrom 10 ds 0

/-- An immediate: a number, optionally negative (R88). -/
def parseImm : List Char → Option Int
  | '-' :: cs => (parseNat cs).map fun n => -(n : Int)
  | cs => (parseNat cs).map fun n => (n : Int)

/-- A register operand `r<n>` with decimal `n` (R88); an index of more than 8 bits fits no field. -/
def parseReg : List Char → Option Reg
  | 'r' :: [] => none
  | 'r' :: cs => (digitsFrom 10 cs 0).bind fun n => if n < 256 then some (BitVec.ofNat 8 n) else none
  | _ => none

/-- A window register's name (R54). -/
def parseWindowReg (word : String) : Option WindowReg :=
  match word with
  | "CMD" => some .cmd
  | "ARG0" => some .arg0
  | "ARG1" => some .arg1
  | "RESULT" => some .result
  | "STATUS" => some .status
  | "PARAM" => some .param
  | "MAXLIMBS" => some .maxLimbs
  | "FFT_THRESHOLD" => some .fftThreshold
  | "ERRCMD" => some .errCmd
  | _ => none

/-- The commands of format D (R85). -/
def commandD : String → Option (Reg → Instr)
  | "LDI" => some .ldi
  | "RESIZE" => some .resize
  | "WRLIMB" => some .wrlimb
  | _ => none

/-- The commands of format S (R85). -/
def commandS : String → Option (Reg → Instr)
  | "RDLIMB" => some .rdlimb
  | "LEN" => some .len
  | "CAP" => some .cap
  | "BITLEN" => some .bitlen
  | "ISZERO" => some .iszero
  | "ISNEG" => some .isneg
  | _ => none

/-- The commands of the formats DS and SS, whose assembler form has two operands (R85). -/
def commandTwo : String → Option (Reg → Reg → Instr)
  | "COPY" => some .copy
  | "MOVE" => some .move
  | "CMPM" => some .cmpm
  | "SHL" => some .shl
  | "SHR" => some .shr
  | "NEG" => some .neg
  | "ABS" => some .abs
  | "CMP" => some .cmp
  | _ => none

/-- The commands of format DST (R85). -/
def commandDST : String → Option (Reg → Reg → Reg → Instr)
  | "ADDM" => some .addm
  | "SUBM" => some .subm
  | "MUL" => some .mul
  | "MULS" => some .muls
  | "MULK" => some .mulk
  | "MULF" => some .mulf
  | "DIV" => some .div
  | "MOD" => some .mod
  | "AND" => some .and
  | "OR" => some .or
  | "XOR" => some .xor
  | "ADD" => some .add
  | "SUB" => some .sub
  | _ => none

/-- The command of a mnemonic and its operand words (R85's assembler form). -/
def parseCommand (mnemonic : String) (operands : List (List Char)) : Option Instr :=
  match operands with
  | [] => if mnemonic = "NOP" then some .nop else none
  | [a] => do (← (commandD mnemonic).orElse fun _ => commandS mnemonic) (← parseReg a)
  | [a, b] => do (← commandTwo mnemonic) (← parseReg a) (← parseReg b)
  | [a, b, c] => do (← commandDST mnemonic) (← parseReg a) (← parseReg b) (← parseReg c)
  | _ => none

/-- The pseudo-instruction of a name and its operand words (R89). -/
def parsePseudo (name : String) (operands : List (List Char)) : Option Pseudo :=
  match name, operands with
  | "li", [a, b] => do return .li (← parseReg a) (← parseImm b)
  | "clr", [a] => do return .clr (← parseReg a)
  | "mov", [a, b] => do return .mov (← parseReg a) (← parseReg b)
  | "resize", [a, b] => do return .resize (← parseReg a) (← parseImm b)
  | "wrl", [a, b, c] => do return .wrl (← parseReg a) (← parseImm b) (← parseImm c)
  | "rdl", [a, b] => do return .rdl (← parseReg a) (← parseImm b)
  | "shli", [a, b, c] => do return .shli (← parseReg a) (← parseReg b) (← parseImm c)
  | "shri", [a, b, c] => do return .shri (← parseReg a) (← parseReg b) (← parseImm c)
  | "divmod", [a, b, c, d] => do return .divmod (← parseReg a) (← parseReg b) (← parseReg c) (← parseReg d)
  | "sync", [] => some .sync
  | _, _ => none

/-- The host statement of a name and its operand words (R88). -/
def parseHostStmt (name : String) (operands : List (List Char)) : Option HostStmt :=
  match name, operands with
  | "cmd", [a] => (parseImm a).map .cmd
  | "arg0", [a] => (parseImm a).map .arg0
  | "arg1", [a] => (parseImm a).map .arg1
  | "wait", [] => some .wait
  | "read", [a] => (parseWindowReg (String.ofList a)).map .read
  | "clrflags", [] => some .clrflags
  | "bnz", [a] => some (.bnz (String.ofList a))
  | _, _ => none

/-- A label line `<label>:` (R88). -/
def parseLabel (word : List Char) : Option HostStmt :=
  match word.reverse with
  | ':' :: c :: cs => some (.label (String.ofList (c :: cs).reverse))
  | _ => none

/-- The statements of one line's words: a command, a host statement, a label, or a pseudo-instruction whose condition
holds, expanded. A line without words holds no statement. A pseudo-instruction outside its condition is no statement (R89;
DEDUCED, log 9). -/
def parseWords : List (List Char) → Option (List HostStmt)
  | [] => some []
  | w :: operands =>
    match parseCommand (String.ofList w) operands with
    | some i => some [.command i]
    | none =>
      match parseHostStmt (String.ofList w) operands with
      | some st => some [st]
      | none =>
        match parsePseudo (String.ofList w) operands with
        | some p => if p.wellFormed then some p.expand else none
        | none => if operands = [] then (parseLabel w).map fun st => [st] else none

/-- The statements of one line of text. -/
def assembleLine (line : String) : Option (List HostStmt) := parseWords (wordsFrom (dropComment line.toList) [])

/-- The statements of a program text, one statement a line (R88). -/
def assemble : List String → Option (List HostStmt)
  | [] => some []
  | line :: rest => do return (← assembleLine line) ++ (← assemble rest)

end Sys2Proof.Machine
end

