-- ==== Sys2Proof/Machine/Window.lean ====
section
/-! DEFINITION. The host register window: which access it answers, what a read gives and what a write does
(spec/20_memory.md R51 to R60; spec/10_state.md R28 to R32). -/

namespace Sys2Proof.Machine

/-- The address lies in the window `BASE` to `BASE + 0xFF` (R60). -/
def inWindow (p : Params) (addr : Nat) : Bool := decide (p.base ≤ addr) && decide (addr < p.base + 256)

/-- The register that an access reaches: a 64-bit access at the aligned offset of a named register (R54, R55). `none`
for every other shape, a misaligned offset and a reserved offset. -/
def reached (p : Params) (addr width : Nat) : Option WindowReg :=
  if width = 8 ∧ inWindow p addr = true then windowRegAt (addr - p.base) else none

/-- What a read of a window register gives (R54). `CMD` reads 0. -/
def State.windowValue (s : State) : WindowReg → Word
  | .cmd => 0
  | .arg0 => s.arg0
  | .arg1 => s.arg1
  | .result => s.result
  | .status => s.statusWord
  | .param => s.paramWord
  | .maxLimbs => BitVec.ofNat 64 s.params.maxLimbs
  | .fftThreshold => BitVec.ofNat 64 s.params.fftThreshold
  | .errCmd => s.errCmd

/-- `MemRead`: the named register's value; 0 for a reserved offset and for every other access shape (R54, R55). -/
def State.memReadValue (s : State) (addr width : Nat) : Word :=
  match reached s.params addr width with
  | some r => s.windowValue r
  | none => 0

/-- A write dropped because the block is busy (R53). -/
def State.dropWrite (s : State) : State := { s with cmdLost := true }

/-- The W1C write to `STATUS`: only bits 8 and 9, only from 1 to 0 (R29). -/
def State.clearFlags (s : State) (v : Word) : State :=
  { s with stickyErr := s.stickyErr && !v.getLsbD 8, cmdLost := s.cmdLost && !v.getLsbD 9 }

/-- Acceptance: latch the command word and become busy (R51). -/
def State.accept (s : State) (v : Word) : State := { s with pending := some (commandOfWrite v) }

/-- What a write to a window register does (R51, R53, R54). A read-only register ignores it. -/
def State.windowWrite (s : State) (r : WindowReg) (v : Word) : State :=
  match r with
  | .cmd => if s.busy then s.dropWrite else s.accept v
  | .arg0 => if s.busy then s.dropWrite else { s with arg0 := v }
  | .arg1 => if s.busy then s.dropWrite else { s with arg1 := v }
  | .status => s.clearFlags v
  | .result | .param | .maxLimbs | .fftThreshold | .errCmd => s

/-- `MemWrite`: the named register's write; no effect at a reserved offset or in any other shape (R55, R60). -/
def State.memWrite (s : State) (addr width : Nat) (v : Word) : State :=
  match reached s.params addr width with
  | some r => s.windowWrite r v
  | none => s

/-- The window returns a value to the host; a read changes nothing else (R59). -/
def State.respond (s : State) (v : Word) : State := { s with readLog := v :: s.readLog }

/-- One access within the window: atomic with respect to completions (R59). -/
def State.windowAccess (s : State) : Access → State
  | .read a w => s.respond (s.memReadValue a w)
  | .write a w v => s.memWrite a w v

/-- One access on the bus. Outside the window it is the platform's (R60; DESIGN CHOICE, log 7). -/
def accessStep (a : Access) (s : State) : Host.Outcome State Fault Refusal :=
  if inWindow s.params a.addr then .next (s.windowAccess a) else .refused (.platformAddress a.addr)

end Sys2Proof.Machine
end

