-- ==== Sys2Proof/Machine/HostProgram.lean ====
section
/-! DEFINITION. The host's step: one statement of its program (spec/30_encoding.md R88; spec/10_state.md R33). A statement
makes at most one access a step (spec/00_scope.md R8); labels and `bnz` make none (R88). DESIGN CHOICE (log 17): they take a
step and a schedule entry all the same. -/

namespace Sys2Proof.Machine

/-- Continue at position `n`. -/
def State.goto (s : State) (n : Nat) : State := { s with host := { s.host with pos := n } }

/-- Continue at the next statement. -/
def State.advance (s : State) : State := s.goto (s.host.pos + 1)

/-- `MemWrite` of 64 bits to a named register of the window, then the next statement. -/
def State.hostWrite (s : State) (r : WindowReg) (v : Word) : State :=
  (s.memWrite (s.params.base + r.offset) 8 v).advance

/-- The value of a 64-bit `MemRead` of a named register of the window. -/
def State.hostReadValue (s : State) (r : WindowReg) : Word := s.memReadValue (s.params.base + r.offset) 8

/-- A `read` statement: the value is returned and kept for `bnz`. -/
def State.hostRead (s : State) (r : WindowReg) : State :=
  let v := s.hostReadValue r
  let t := (s.respond v).advance
  { t with host := { t.host with lastRead := some v } }

/-- One poll of a `wait` statement: go on when `BUSY`, bit 0 of `STATUS`, is 0. -/
def State.hostPoll (s : State) : State :=
  let v := s.hostReadValue .status
  if v.getLsbD 0 then s.respond v else (s.respond v).advance

/-- `bnz`: continue at the label if the value of the most recent `read` is nonzero, else at the next statement. With no
value to test, or no such label, it faults (DESIGN CHOICE, log 8). -/
def hostBranch (name : String) (s : State) : Host.Outcome State Fault Refusal :=
  match s.host.lastRead with
  | none => .fault .branchBeforeRead
  | some v =>
    if v = 0 then .next s.advance
    else
      match labelTarget name s.host.program with
      | some n => .next (s.goto n)
      | none => .fault (.unknownLabel name)

/-- One statement of R88, as one step; for `wait`, one poll. DESIGN CHOICE (log 17): a label and a `bnz`, which make no access,
take a step of their own too. -/
def hostStatement (st : HostStmt) (s : State) : Host.Outcome State Fault Refusal :=
  match st with
  | .command i => .next (s.hostWrite .cmd ((encode i).setWidth 64))
  | .cmd imm => .next (s.hostWrite .cmd ((BitVec.ofInt 32 imm).setWidth 64))
  | .arg0 imm => .next (s.hostWrite .arg0 (BitVec.ofInt 64 imm))
  | .arg1 imm => .next (s.hostWrite .arg1 (BitVec.ofInt 64 imm))
  | .wait => .next s.hostPoll
  | .read r => .next (s.hostRead r)
  | .clrflags => .next (s.hostWrite .status 0x300#64)
  | .label _ => .next s.advance
  | .bnz name => hostBranch name s

/-- The host's step: the statement at its position, or nothing when the program has ended (DESIGN CHOICE, log 17: that step
takes a schedule entry and makes no access). -/
def hostStep (s : State) : Host.Outcome State Fault Refusal :=
  match s.host.program[s.host.pos]? with
  | some st => hostStatement st s
  | none => .next s

/-- The program has a final `wait`: nothing but `read` statements follows it. DESIGN CHOICE (log 16): R254 names a final
`wait`, and the programs P1 to P4 of spec/95_test_vectors.md, whose end states are given, read registers after theirs. -/
def hasFinalWait (program : List HostStmt) : Bool :=
  decide ((program.reverse.dropWhile HostStmt.isRead).head? = some .wait)

/-- The end of a run: the last statement has been executed, and the program's final `wait` went on because it read
`BUSY = 0` (R254). A program without the final `wait` has no defined end state. DESIGN CHOICE (log 16): which `wait` is the
final one. -/
def State.runEnded (s : State) : Bool :=
  decide (s.host.program.length ≤ s.host.pos) && hasFinalWait s.host.program

end Sys2Proof.Machine
end

