-- ==== Sys2Proof/Machine/Engine.lean ====
section
/-! DEFINITION. The agents' steps and who steps next (spec/00_scope.md R8; spec/20_memory.md R52, R62;
spec/70_reset_and_hazards.md R250). -/

namespace Sys2Proof.Machine

/-- The engine's step: decode the pending word and execute it; an illegal word fails with IllegalCommand (R52, R84,
R86). With nothing pending it changes nothing. -/
def engineStep (s : State) : Host.Outcome State Fault Refusal :=
  match s.pending with
  | none => .next s
  | some w =>
    match decodeWord w with
    | .ok i => exec i s
    | .error _ => .next (s.fail .illegalCommand w)

/-- Reset: every piece of the block's state takes its reset value and the pending command is discarded (R37, R250,
R251). The host, its schedule and what it has observed are not the block's: they stay. DESIGN CHOICE (log 6): the spec gives
reset's effect on the block only. -/
def State.assertReset (s : State) : State :=
  { State.resetOf s.params with host := s.host, schedule := s.schedule, readLog := s.readLog }

/-- Who steps next: the schedule's first entry. When the schedule is used up, the engine completes a pending command
(the fairness of R52), else the host program goes on. DESIGN CHOICE (log 2): the spec leaves the order to the platform
(R62, R67, R228); the schedule gives every order, and only its end has a default. -/
def State.nextEvent (s : State) : Event :=
  match s.schedule with
  | e :: _ => e
  | [] => if s.busy then .engine else .host

/-- The state with the schedule's first entry taken. -/
def State.popEvent (s : State) : State := { s with schedule := s.schedule.tail }

/-- One step of an agent. -/
def agentStep (e : Event) (s : State) : Host.Outcome State Fault Refusal :=
  match e with
  | .host => hostStep s
  | .access a => accessStep a s
  | .engine => engineStep s
  | .reset => .next s.assertReset

end Sys2Proof.Machine
end

