-- ==== Sys2Proof/Machine/Step.lean ====
section
/-! DEFINITION. One step of the whole machine, and the placing of a command word where the next step runs it. -/

namespace Sys2Proof.Machine

/-- One step: the next agent's step, with its schedule entry taken (R8, R62). -/
def step (s : State) : Host.Outcome State Fault Refusal := agentStep s.nextEvent s.popEvent

/-- The block fetches nothing (R33, R65): its next command is the pending word. The word stands as a write to `CMD`
latches it (R51), and the engine steps next. -/
def State.withFetchWord (s : State) (nbits w : Nat) : State :=
  { s with
    pending := some (commandOfWrite (BitVec.ofNat 64 (w % 2 ^ nbits)))
    schedule := .engine :: s.schedule }

end Sys2Proof.Machine
end

