-- ==== Sys2Proof/Safety.lean ====
section
/-! DEFINITION. What counts as a sound state and a safe run: the representation invariant of every register
(spec/10_state.md R21 to R23) and the machine's invariant. -/

namespace Sys2Proof.Machine

/-- R22 and R23: the value 0 has sign 0, and the most significant limb is not 0. -/
abbrev BigReg.normalized (r : BigReg) : Prop :=
  (r.limbs = [] → r.sign = false) ∧ r.limbs.getLast? ≠ some 0#64

/-- A sound register (R21 to R23): normalized, its length and capacity within their ranges. -/
abbrev BigReg.wf (maxLimbs : Nat) (r : BigReg) : Prop :=
  r.normalized ∧ r.len ≤ r.cap ∧ r.cap ≤ maxLimbs

/-- The machine's invariant: legal parameters (R6), `NREG` registers (R20), each one sound (R21 to R23), and an `ERRCMD`
that is a zero-extended 32-bit word (R31). -/
abbrev State.wf (s : State) : Prop :=
  s.params.legal = true ∧ s.regs.length = s.params.nreg ∧ (∀ r ∈ s.regs, r.wf s.params.maxLimbs) ∧
    s.errCmd.toNat < 2 ^ 32

/-- The integer that register `r` holds. -/
def State.val (s : State) (r : Reg) : Int := (s.reg r).val

/-- The state after a command that writes the integer `x` to `R[d]` completes successfully, in full: the canonical
record, capacity `max(cap, L)` (R13, R26), `ERR` 0 and `BUSY` 0 (R223), nothing else changed. -/
def State.wrote (s : State) (d : Reg) (x : Int) : State :=
  { s with
    regs := s.regs.set d.toNat
      { sign := decide (x < 0), limbs := toLimbs x.natAbs, cap := max (s.reg d).cap (limbLen x.natAbs) }
    err := none
    pending := none }

/-- The state after a scalar command that answers `v` completes successfully, in full: `RESULT` is `v` (R28), `ERR` 0 and
`BUSY` 0 (R223), nothing else changed. -/
def State.answered (s : State) (v : Word) : State := { s with result := v, err := none, pending := none }

/-- The state after a command fails with error `e`, in full (R224): `ERR`, `STICKY_ERR`, `ERRCMD` and `BUSY`, nothing else
changed. -/
def State.failed (s : State) (e : ErrCode) (i : Instr) : State :=
  { s with err := some e, stickyErr := true, errCmd := (encode i).setWidth 64, pending := none }

/-- Registers that a command writes: its destination, and MOVE's source (R25, R103). -/
def writtenRegs : Instr → List Reg
  | .ldi rd | .copy rd _ | .resize rd | .wrlimb rd | .addm rd _ _ | .subm rd _ _ | .mul rd _ _ | .muls rd _ _
  | .mulk rd _ _ | .mulf rd _ _ | .div rd _ _ | .mod rd _ _ | .and rd _ _ | .or rd _ _ | .xor rd _ _ | .shl rd _
  | .shr rd _ | .add rd _ _ | .sub rd _ _ | .neg rd _ | .abs rd _ => [rd]
  | .move rd rs1 => [rd, rs1]
  | .nop | .rdlimb _ | .len _ | .cap _ | .bitlen _ | .cmpm _ _ | .cmp _ _ | .iszero _ | .isneg _ => []

/-- The commands that write `RESULT` (R28). -/
def writesResult : Instr → Bool
  | .rdlimb _ | .len _ | .cap _ | .bitlen _ | .cmpm _ _ | .cmp _ _ | .iszero _ | .isneg _ => true
  | .nop | .ldi _ | .copy _ _ | .move _ _ | .resize _ | .wrlimb _ | .addm _ _ _ | .subm _ _ _ | .mul _ _ _
  | .muls _ _ _ | .mulk _ _ _ | .mulf _ _ _ | .div _ _ _ | .mod _ _ _ | .and _ _ _ | .or _ _ _ | .xor _ _ _
  | .shl _ _ | .shr _ _ | .add _ _ _ | .sub _ _ _ | .neg _ _ | .abs _ _ => false

/-- The commands that write `STATUS.MULPATH` (R36, R141). -/
def writesMulPath : Instr → Bool
  | .mul _ _ _ | .muls _ _ _ | .mulk _ _ _ | .mulf _ _ _ => true
  | .nop | .ldi _ | .copy _ _ | .move _ _ | .resize _ | .wrlimb _ | .rdlimb _ | .len _ | .cap _ | .bitlen _
  | .addm _ _ _ | .subm _ _ _ | .cmpm _ _ | .div _ _ _ | .mod _ _ _ | .and _ _ _ | .or _ _ _ | .xor _ _ _
  | .shl _ _ | .shr _ _ | .add _ _ _ | .sub _ _ _ | .neg _ _ | .abs _ _ | .cmp _ _ | .iszero _ | .isneg _ => false

/-- An event that cannot stop the machine: every engine step and reset, every access within the window, and a host step
of a program whose branches cannot fault. -/
def Event.safe (s : State) : Event → Prop
  | .engine | .reset => True
  | .access a => inWindow s.params a.addr = true
  | .host => ∀ st ∈ s.host.program, ∀ name, st ≠ .bnz name

end Sys2Proof.Machine
end

