-- ==== Sys2Proof/Certificates/Slice0/Obligations.lean ====
section
/-! DEFINITION. The statements for the provers. `State.wrote`, `State.answered` and `State.failed` (Safety.lean) are whole
next states, so an equation with one of them states the result, the frame and the completion at once. Where a statement
begins with `encode … = packWord …`, that is its rule's Encoding line. -/

open Sys2Proof Sys2Proof.Machine

/-! ### Limb store (spec/40_limb_store.md) -/

/-- R100: the word 0 and no other is NOP, and NOP does nothing but complete. -/
def Obligations.NopOnlyCompletes : Prop :=
  (∀ w : CmdWord, decodeWord w = .ok .nop ↔ w = 0x00000000#32) ∧
    ∀ s : State, exec .nop s = .next { s with err := none, pending := none }

/-- R105: LDI writes `sext_64(ARG0)` and never fails after decode. -/
def Obligations.LdiWritesSignedArg0 : Prop :=
  ∀ (s : State) (rd : Reg), s.wf → rd.toNat < s.params.nreg →
    encode (.ldi rd) = packWord 0x01#8 rd 0 0 ∧
    exec (.ldi rd) s = .next (s.wrote rd s.arg0.toInt)

/-- R102: COPY writes the source's sign and limbs, and its length as the capacity. -/
def Obligations.CopyWritesValueAndTightCapacity : Prop :=
  ∀ (s : State) (rd rs1 : Reg), rd.toNat < s.params.nreg → rs1.toNat < s.params.nreg →
    encode (.copy rd rs1) = packWord 0x02#8 rd rs1 0 ∧
    exec (.copy rd rs1) s =
      .next { s with
        regs := s.regs.set rd.toNat
          { sign := (s.reg rs1).sign, limbs := (s.reg rs1).limbs, cap := (s.reg rs1).limbs.length }
        err := none
        pending := none }

/-- R103: MOVE transfers the whole record and leaves the zero value with capacity 0; a self-move changes nothing. -/
def Obligations.MoveTransfersRecordAndZeroesSource : Prop :=
  ∀ (s : State) (rd rs1 : Reg), rd.toNat < s.params.nreg → rs1.toNat < s.params.nreg →
    encode (.move rd rs1) = packWord 0x03#8 rd rs1 0 ∧
    (rd ≠ rs1 → exec (.move rd rs1) s =
      .next { s with
        regs := (s.regs.set rd.toNat (s.reg rs1)).set rs1.toNat { sign := false, limbs := [], cap := 0 }
        err := none
        pending := none }) ∧
    (rd = rs1 → exec (.move rd rs1) s = .next { s with err := none, pending := none })

/-- R104: RESIZE sets the capacity to `max(cap, n)`, and fails when `n > MAXLIMBS`. -/
def Obligations.ResizeOnlyGrowsCapacity : Prop :=
  ∀ (s : State) (rd : Reg), rd.toNat < s.params.nreg →
    encode (.resize rd) = packWord 0x04#8 rd 0 0 ∧
    (s.arg0.toNat ≤ s.params.maxLimbs → exec (.resize rd) s =
      .next { s with
        regs := s.regs.set rd.toNat
          { sign := (s.reg rd).sign, limbs := (s.reg rd).limbs, cap := max (s.reg rd).cap s.arg0.toNat }
        err := none
        pending := none }) ∧
    (s.params.maxLimbs < s.arg0.toNat → exec (.resize rd) s = .next (s.failed .capacityExceeded (.resize rd)))

/-- R106, R57: RDLIMB answers limb `ARG0` of the magnitude, 0 at and above the length; as a number, bits `64j + 63` to
`64j` of the absolute value. -/
def Obligations.RdlimbAnswersLimbOfMagnitude : Prop :=
  ∀ (s : State) (rs1 : Reg), rs1.toNat < s.params.nreg →
    encode (.rdlimb rs1) = packWord 0x05#8 0 rs1 0 ∧
    ∃ v : Word, exec (.rdlimb rs1) s = .next (s.answered v) ∧
      (∀ h : s.arg0.toNat < (s.reg rs1).limbs.length, v = (s.reg rs1).limbs[s.arg0.toNat]) ∧
      ((s.reg rs1).limbs.length ≤ s.arg0.toNat → v = 0) ∧
      v.toNat = (s.val rs1).natAbs / 2 ^ (64 * s.arg0.toNat) % 2 ^ 64

/-- R107: WRLIMB replaces one limb of the magnitude, keeps the sign of a nonzero value and normalizes; it fails when the
index is `MAXLIMBS` or above, and for no other reason. -/
def Obligations.WrlimbReplacesOneLimb : Prop :=
  ∀ (s : State) (rd : Reg), s.wf → rd.toNat < s.params.nreg →
    encode (.wrlimb rd) = packWord 0x06#8 rd 0 0 ∧
    (s.arg0.toNat < s.params.maxLimbs →
      ∀ m : Int, m = ((s.val rd).natAbs : Int) - ((s.limbRead rd s.arg0.toNat).toNat : Int) * 2 ^ (64 * s.arg0.toNat)
          + (s.arg1.toNat : Int) * 2 ^ (64 * s.arg0.toNat) →
        exec (.wrlimb rd) s = .next (s.wrote rd (if s.val rd < 0 ∧ m ≠ 0 then -m else m))) ∧
    (s.params.maxLimbs ≤ s.arg0.toNat → exec (.wrlimb rd) s = .next (s.failed .capacityExceeded (.wrlimb rd)))

/-- R107, R57: after a WRLIMB the limb written reads as the data, and every other limb of every register reads as before. -/
def Obligations.WrlimbLeavesEveryOtherLimb : Prop :=
  ∀ (s : State) (rd : Reg), s.wf → rd.toNat < s.params.nreg → s.arg0.toNat < s.params.maxLimbs →
    ∃ t, exec (.wrlimb rd) s = .next t ∧ t.limbRead rd s.arg0.toNat = s.arg1 ∧
      ∀ (r : Reg) (j : Nat), (r ≠ rd ∨ j ≠ s.arg0.toNat) → t.limbRead r j = s.limbRead r j

/-- R108, R109: LEN answers the number of limbs of the value, CAP the capacity. -/
def Obligations.LenAndCapAnswerLengths : Prop :=
  ∀ (s : State) (rs1 : Reg), s.wf → rs1.toNat < s.params.nreg →
    encode (.len rs1) = packWord 0x07#8 0 rs1 0 ∧
    encode (.cap rs1) = packWord 0x08#8 0 rs1 0 ∧
    exec (.len rs1) s = .next (s.answered (BitVec.ofNat 64 (limbLen (s.val rs1).natAbs))) ∧
    exec (.cap rs1) s = .next (s.answered (BitVec.ofNat 64 (s.reg rs1).cap)) ∧
    limbLen (s.val rs1).natAbs ≤ (s.reg rs1).cap ∧ (s.reg rs1).cap ≤ s.params.maxLimbs ∧ s.params.maxLimbs < 2 ^ 64

/-- R110: BITLEN answers the bit length of the absolute value, which fits 64 bits. -/
def Obligations.BitlenAnswersBitLength : Prop :=
  ∀ (s : State) (rs1 : Reg), s.wf → rs1.toNat < s.params.nreg →
    encode (.bitlen rs1) = packWord 0x09#8 0 rs1 0 ∧
    exec (.bitlen rs1) s = .next (s.answered (BitVec.ofNat 64 (bitlen (s.val rs1).natAbs))) ∧
    bitlen (s.val rs1).natAbs < 2 ^ 64

/-! ### Magnitude kernels (spec/41_magnitude.md) -/

/-- R120: ADDM writes the sum of the absolute values, or fails when it is too long. -/
def Obligations.AddmSumsMagnitudes : Prop :=
  ∀ (s : State) (rd rs1 rs2 : Reg),
    rd.toNat < s.params.nreg → rs1.toNat < s.params.nreg → rs2.toNat < s.params.nreg →
    encode (.addm rd rs1 rs2) = packWord 0x10#8 rd rs1 rs2 ∧
    (limbLen ((s.val rs1).natAbs + (s.val rs2).natAbs) ≤ s.params.maxLimbs →
      exec (.addm rd rs1 rs2) s = .next (s.wrote rd (|s.val rs1| + |s.val rs2|))) ∧
    (s.params.maxLimbs < limbLen ((s.val rs1).natAbs + (s.val rs2).natAbs) →
      exec (.addm rd rs1 rs2) s = .next (s.failed .capacityExceeded (.addm rd rs1 rs2)))

/-- R121: SUBM writes the difference of the absolute values, or fails with MagnitudeOrder. -/
def Obligations.SubmSubtractsOrRaisesMagnitudeOrder : Prop :=
  ∀ (s : State) (rd rs1 rs2 : Reg), s.wf →
    rd.toNat < s.params.nreg → rs1.toNat < s.params.nreg → rs2.toNat < s.params.nreg →
    encode (.subm rd rs1 rs2) = packWord 0x11#8 rd rs1 rs2 ∧
    (|s.val rs2| ≤ |s.val rs1| → exec (.subm rd rs1 rs2) s = .next (s.wrote rd (|s.val rs1| - |s.val rs2|))) ∧
    (|s.val rs1| < |s.val rs2| → exec (.subm rd rs1 rs2) s = .next (s.failed .magnitudeOrder (.subm rd rs1 rs2)))

/-- R122: CMPM answers -1, 0 or +1 in 64 bits by the order of the absolute values. -/
def Obligations.CmpmAnswersMagnitudeOrder : Prop :=
  ∀ (s : State) (rs1 rs2 : Reg), s.wf → rs1.toNat < s.params.nreg → rs2.toNat < s.params.nreg →
    encode (.cmpm rs1 rs2) = packWord 0x12#8 0 rs1 rs2 ∧
    exec (.cmpm rs1 rs2) s = .next (s.answered (BitVec.ofInt 64 (|s.val rs1| - |s.val rs2|).sign))

/-! ### Multiplication (spec/42_multiply.md) -/

/-- R142, R150: MUL writes the exact product and reports the path that the sizes select, or fails when the product is
too long. -/
def Obligations.MulWritesExactProductByDispatch : Prop :=
  ∀ (s : State) (rd rs1 rs2 : Reg), s.wf →
    rd.toNat < s.params.nreg → rs1.toNat < s.params.nreg → rs2.toNat < s.params.nreg →
    ∀ n : Nat, n = max (limbLen (s.val rs1).natAbs) (limbLen (s.val rs2).natAbs) →
    encode (.mul rd rs1 rs2) = packWord 0x20#8 rd rs1 rs2 ∧
    (limbLen (s.val rs1 * s.val rs2).natAbs ≤ s.params.maxLimbs →
      exec (.mul rd rs1 rs2) s =
        .next { s.wrote rd (s.val rs1 * s.val rs2) with
          mulPath :=
            if s.val rs1 = 0 ∨ s.val rs2 = 0 then .zeroOperand
            else if n ≤ s.params.schoolbookMax then .schoolbook
            else if n ≤ s.params.fftThreshold then .karatsuba
            else .fft }) ∧
    (s.params.maxLimbs < limbLen (s.val rs1 * s.val rs2).natAbs →
      exec (.mul rd rs1 rs2) s = .next (s.failed .capacityExceeded (.mul rd rs1 rs2)))

/-- R143, R144, R145: MULS, MULK and MULF write the exact product and report their forced path, or fail when the product
is too long. -/
def Obligations.ForcedMultipliesWriteExactProduct : Prop :=
  ∀ (s : State) (rd rs1 rs2 : Reg), s.wf →
    rd.toNat < s.params.nreg → rs1.toNat < s.params.nreg → rs2.toNat < s.params.nreg →
    encode (.muls rd rs1 rs2) = packWord 0x21#8 rd rs1 rs2 ∧
    encode (.mulk rd rs1 rs2) = packWord 0x22#8 rd rs1 rs2 ∧
    encode (.mulf rd rs1 rs2) = packWord 0x23#8 rd rs1 rs2 ∧
    (limbLen (s.val rs1 * s.val rs2).natAbs ≤ s.params.maxLimbs →
      exec (.muls rd rs1 rs2) s =
        .next { s.wrote rd (s.val rs1 * s.val rs2) with
          mulPath := if s.val rs1 = 0 ∨ s.val rs2 = 0 then .zeroOperand else .schoolbook } ∧
      exec (.mulk rd rs1 rs2) s =
        .next { s.wrote rd (s.val rs1 * s.val rs2) with
          mulPath :=
            if s.val rs1 = 0 ∨ s.val rs2 = 0 then .zeroOperand
            else if max (limbLen (s.val rs1).natAbs) (limbLen (s.val rs2).natAbs) ≤ s.params.schoolbookMax then .schoolbook
            else .karatsuba } ∧
      exec (.mulf rd rs1 rs2) s =
        .next { s.wrote rd (s.val rs1 * s.val rs2) with
          mulPath := if s.val rs1 = 0 ∨ s.val rs2 = 0 then .zeroOperand else .fft }) ∧
    (s.params.maxLimbs < limbLen (s.val rs1 * s.val rs2).natAbs →
      exec (.muls rd rs1 rs2) s = .next (s.failed .capacityExceeded (.muls rd rs1 rs2)) ∧
      exec (.mulk rd rs1 rs2) s = .next (s.failed .capacityExceeded (.mulk rd rs1 rs2)) ∧
      exec (.mulf rd rs1 rs2) s = .next (s.failed .capacityExceeded (.mulf rd rs1 rs2)))

/-- R140: on every path the product is the exact integer product. The four commands end in states that differ at most in
the reported path and in the recorded word of a failure, whatever the thresholds, and a success holds the product. -/
def Obligations.MultiplyPathsAgree : Prop :=
  ∀ (s : State) (rd rs1 rs2 : Reg), s.wf →
    rd.toNat < s.params.nreg → rs1.toNat < s.params.nreg → rs2.toNat < s.params.nreg →
    ∃ t, exec (.mul rd rs1 rs2) s = .next t ∧
      (t.err = none → t.val rd = s.val rs1 * s.val rs2) ∧
      ∀ i ∈ [Instr.muls rd rs1 rs2, Instr.mulk rd rs1 rs2, Instr.mulf rd rs1 rs2],
        ∃ u, exec i s = .next u ∧ u = { t with mulPath := u.mulPath, errCmd := u.errCmd } ∧
          (t.err = none → u.errCmd = t.errCmd) ∧ (t.err ≠ none → u.mulPath = t.mulPath)

/-! ### Division (spec/43_divide.md) -/

/-- R161: DIV writes the quotient rounded toward zero; a zero divisor fails with DivisionByZero, whatever the dividend. -/
def Obligations.DivWritesTruncatingQuotient : Prop :=
  ∀ (s : State) (rd rs1 rs2 : Reg), s.wf →
    rd.toNat < s.params.nreg → rs1.toNat < s.params.nreg → rs2.toNat < s.params.nreg →
    encode (.div rd rs1 rs2) = packWord 0x30#8 rd rs1 rs2 ∧
    (s.val rs2 ≠ 0 → exec (.div rd rs1 rs2) s = .next (s.wrote rd ((s.val rs1).tdiv (s.val rs2)))) ∧
    (s.val rs2 = 0 → exec (.div rd rs1 rs2) s = .next (s.failed .divisionByZero (.div rd rs1 rs2)))

/-- R162: MOD writes the remainder of the truncating division; a zero divisor fails with DivisionByZero. -/
def Obligations.ModWritesTruncatingRemainder : Prop :=
  ∀ (s : State) (rd rs1 rs2 : Reg), s.wf →
    rd.toNat < s.params.nreg → rs1.toNat < s.params.nreg → rs2.toNat < s.params.nreg →
    encode (.mod rd rs1 rs2) = packWord 0x31#8 rd rs1 rs2 ∧
    (s.val rs2 ≠ 0 → exec (.mod rd rs1 rs2) s = .next (s.wrote rd ((s.val rs1).tmod (s.val rs2)))) ∧
    (s.val rs2 = 0 → exec (.mod rd rs1 rs2) s = .next (s.failed .divisionByZero (.mod rd rs1 rs2)))

/-- R11, R89, R163: DIV then MOD, with a quotient register that is neither source nor the remainder's, leave `q` and `r` with
`q * b + r = a`, `|r| < |b|`, and `r` 0 or of the dividend's sign. -/
def Obligations.DivThenModRecombine : Prop :=
  ∀ (s : State) (rq rr ra rb : Reg), s.wf →
    rq.toNat < s.params.nreg → rr.toNat < s.params.nreg → ra.toNat < s.params.nreg → rb.toNat < s.params.nreg →
    rq ≠ ra → rq ≠ rb → rq ≠ rr → s.val rb ≠ 0 →
    ∃ t u, exec (.div rq ra rb) s = .next t ∧ exec (.mod rr ra rb) t = .next u ∧
      u.val rq * s.val rb + u.val rr = s.val ra ∧ |u.val rr| < |s.val rb| ∧
      (u.val rr ≠ 0 → (u.val rr < 0 ↔ s.val ra < 0))

/-! ### Bitwise and shifts (spec/44_bitwise.md) -/

/-- R181, R187: AND writes the integer AND on two's-complement expansions (the library's `Int.land`), or fails in the
carry-out case at full length: exactly when the result is `-2^(64*MAXLIMBS)`. -/
def Obligations.AndWritesIntegerAnd : Prop :=
  ∀ (s : State) (rd rs1 rs2 : Reg), s.wf →
    rd.toNat < s.params.nreg → rs1.toNat < s.params.nreg → rs2.toNat < s.params.nreg →
    encode (.and rd rs1 rs2) = packWord 0x40#8 rd rs1 rs2 ∧
    (Int.land (s.val rs1) (s.val rs2) ≠ -2 ^ (64 * s.params.maxLimbs) →
      exec (.and rd rs1 rs2) s = .next (s.wrote rd (Int.land (s.val rs1) (s.val rs2)))) ∧
    (Int.land (s.val rs1) (s.val rs2) = -2 ^ (64 * s.params.maxLimbs) →
      exec (.and rd rs1 rs2) s = .next (s.failed .capacityExceeded (.and rd rs1 rs2)))

/-- R182, R187: OR writes the integer OR on two's-complement expansions (the library's `Int.lor`), and never fails after
decode. -/
def Obligations.OrWritesIntegerOr : Prop :=
  ∀ (s : State) (rd rs1 rs2 : Reg), s.wf →
    rd.toNat < s.params.nreg → rs1.toNat < s.params.nreg → rs2.toNat < s.params.nreg →
    encode (.or rd rs1 rs2) = packWord 0x41#8 rd rs1 rs2 ∧
    exec (.or rd rs1 rs2) s = .next (s.wrote rd (Int.lor (s.val rs1) (s.val rs2)))

/-- R183, R187: XOR writes the integer XOR on two's-complement expansions (the library's `Int.xor`), or fails in the
carry-out case at full length: exactly when the result is `-2^(64*MAXLIMBS)`. -/
def Obligations.XorWritesIntegerXor : Prop :=
  ∀ (s : State) (rd rs1 rs2 : Reg), s.wf →
    rd.toNat < s.params.nreg → rs1.toNat < s.params.nreg → rs2.toNat < s.params.nreg →
    encode (.xor rd rs1 rs2) = packWord 0x42#8 rd rs1 rs2 ∧
    (Int.xor (s.val rs1) (s.val rs2) ≠ -2 ^ (64 * s.params.maxLimbs) →
      exec (.xor rd rs1 rs2) s = .next (s.wrote rd (Int.xor (s.val rs1) (s.val rs2)))) ∧
    (Int.xor (s.val rs1) (s.val rs2) = -2 ^ (64 * s.params.maxLimbs) →
      exec (.xor rd rs1 rs2) s = .next (s.failed .capacityExceeded (.xor rd rs1 rs2)))

/-- R185: SHL writes the value times `2^k`; a zero source gives 0 for every `k`; it fails exactly when the source is not 0
and `ceil((bitlen + k) / 64) > MAXLIMBS`. -/
def Obligations.ShlMultipliesByPowerOfTwo : Prop :=
  ∀ (s : State) (rd rs1 : Reg), rd.toNat < s.params.nreg → rs1.toNat < s.params.nreg →
    encode (.shl rd rs1) = packWord 0x43#8 rd rs1 0 ∧
    (s.val rs1 = 0 → exec (.shl rd rs1) s = .next (s.wrote rd 0)) ∧
    (s.val rs1 ≠ 0 → (bitlen (s.val rs1).natAbs + s.arg0.toNat + 63) / 64 ≤ s.params.maxLimbs →
      exec (.shl rd rs1) s = .next (s.wrote rd (s.val rs1 * 2 ^ s.arg0.toNat))) ∧
    (s.val rs1 ≠ 0 → s.params.maxLimbs < (bitlen (s.val rs1).natAbs + s.arg0.toNat + 63) / 64 →
      exec (.shl rd rs1) s = .next (s.failed .capacityExceeded (.shl rd rs1)))

/-- R186: SHR writes the value divided by `2^k`, rounded toward zero, and never fails after decode. -/
def Obligations.ShrDividesTowardZero : Prop :=
  ∀ (s : State) (rd rs1 : Reg), s.wf → rd.toNat < s.params.nreg → rs1.toNat < s.params.nreg →
    encode (.shr rd rs1) = packWord 0x44#8 rd rs1 0 ∧
    exec (.shr rd rs1) s = .next (s.wrote rd ((s.val rs1).tdiv (2 ^ s.arg0.toNat)))

/-- R186's shift inverse: an SHL that succeeds, then SHR by the same amount, gives back the value, for every amount. -/
def Obligations.ShiftLeftThenRightRestores : Prop :=
  ∀ (s t : State) (rm rd rs1 : Reg), s.wf →
    rm.toNat < s.params.nreg → rd.toNat < s.params.nreg → rs1.toNat < s.params.nreg →
    exec (.shl rm rs1) s = .next t → t.err = none →
    ∃ u, exec (.shr rd rm) t = .next u ∧ u.err = none ∧ u.val rd = s.val rs1

/-! ### Signed facade (spec/45_signed.md) -/

/-- R200: ADD writes the signed sum, or fails when it is too long. -/
def Obligations.AddWritesSignedSum : Prop :=
  ∀ (s : State) (rd rs1 rs2 : Reg), s.wf →
    rd.toNat < s.params.nreg → rs1.toNat < s.params.nreg → rs2.toNat < s.params.nreg →
    encode (.add rd rs1 rs2) = packWord 0x50#8 rd rs1 rs2 ∧
    (limbLen (s.val rs1 + s.val rs2).natAbs ≤ s.params.maxLimbs →
      exec (.add rd rs1 rs2) s = .next (s.wrote rd (s.val rs1 + s.val rs2))) ∧
    (s.params.maxLimbs < limbLen (s.val rs1 + s.val rs2).natAbs →
      exec (.add rd rs1 rs2) s = .next (s.failed .capacityExceeded (.add rd rs1 rs2)))

/-- R201: SUB writes the signed difference, or fails when it is too long. -/
def Obligations.SubWritesSignedDifference : Prop :=
  ∀ (s : State) (rd rs1 rs2 : Reg), s.wf →
    rd.toNat < s.params.nreg → rs1.toNat < s.params.nreg → rs2.toNat < s.params.nreg →
    encode (.sub rd rs1 rs2) = packWord 0x51#8 rd rs1 rs2 ∧
    (limbLen (s.val rs1 - s.val rs2).natAbs ≤ s.params.maxLimbs →
      exec (.sub rd rs1 rs2) s = .next (s.wrote rd (s.val rs1 - s.val rs2))) ∧
    (s.params.maxLimbs < limbLen (s.val rs1 - s.val rs2).natAbs →
      exec (.sub rd rs1 rs2) s = .next (s.failed .capacityExceeded (.sub rd rs1 rs2)))

/-- R202, R203: NEG writes the negated value, ABS the absolute value; neither fails after decode. -/
def Obligations.NegAndAbsWriteSignedValues : Prop :=
  ∀ (s : State) (rd rs1 : Reg), s.wf → rd.toNat < s.params.nreg → rs1.toNat < s.params.nreg →
    encode (.neg rd rs1) = packWord 0x52#8 rd rs1 0 ∧
    encode (.abs rd rs1) = packWord 0x53#8 rd rs1 0 ∧
    exec (.neg rd rs1) s = .next (s.wrote rd (-s.val rs1)) ∧
    exec (.abs rd rs1) s = .next (s.wrote rd |s.val rs1|)

/-- R204: CMP answers -1, 0 or +1 in 64 bits by the integer order. -/
def Obligations.CmpAnswersIntegerOrder : Prop :=
  ∀ (s : State) (rs1 rs2 : Reg), s.wf → rs1.toNat < s.params.nreg → rs2.toNat < s.params.nreg →
    encode (.cmp rs1 rs2) = packWord 0x54#8 0 rs1 rs2 ∧
    exec (.cmp rs1 rs2) s = .next (s.answered (BitVec.ofInt 64 (s.val rs1 - s.val rs2).sign))

/-- R205, R206: ISZERO answers 1 exactly for the value 0, ISNEG 1 exactly for a negative value. -/
def Obligations.ZeroAndSignTestsAnswerByValue : Prop :=
  ∀ (s : State) (rs1 : Reg), s.wf → rs1.toNat < s.params.nreg →
    encode (.iszero rs1) = packWord 0x55#8 0 rs1 0 ∧
    encode (.isneg rs1) = packWord 0x56#8 0 rs1 0 ∧
    exec (.iszero rs1) s = .next (s.answered (if s.val rs1 = 0 then 1 else 0)) ∧
    exec (.isneg rs1) s = .next (s.answered (if s.val rs1 < 0 then 1 else 0))

/-! ### Errors and completion (spec/60_exceptions.md) -/

/-- R221, R222: a command with a used register field at or above `NREG` fails with BadRegister, whatever else holds; with
`NREG = 256` there is no such field. -/
def Obligations.BadRegisterFieldFails : Prop :=
  (∀ (s : State) (i : Instr), i.wellFormed s.params.nreg = false → exec i s = .next (s.failed .badRegister i)) ∧
  ∀ i : Instr, i.wellFormed 256 = true

/-- R81, R84, R86: the engine completes a word that is no command's encoding with IllegalCommand, changing nothing else;
and no command's encoding are the words whose opcode is unassigned and the words of a format whose must-be-zero bits are not
all zero. -/
def Obligations.IllegalWordsFail : Prop :=
  (∀ (s : State) (w : CmdWord), s.nextEvent = .engine → s.pending = some w → (∀ i, encode i ≠ w) →
    step s =
      .next { s with
        err := some .illegalCommand
        stickyErr := true
        errCmd := w.setWidth 64
        pending := none
        schedule := s.schedule.tail }) ∧
  (∀ (w : CmdWord) (op : Nat), op = w.toNat % 256 →
    (0x0A ≤ op ∧ op ≤ 0x0F) ∨ (0x13 ≤ op ∧ op ≤ 0x1F) ∨ (0x24 ≤ op ∧ op ≤ 0x2F) ∨ (0x32 ≤ op ∧ op ≤ 0x3F) ∨
      (0x45 ≤ op ∧ op ≤ 0x4F) ∨ (0x57 ≤ op ∧ op ≤ 0xFF) →
    ∀ i, encode i ≠ w) ∧
  ∀ (w : CmdWord) (op : Nat), op = w.toNat % 256 →
    (op = 0x00 ∧ w &&& 0xFFFFFF00#32 ≠ 0) ∨
      (op ∈ [0x01, 0x04, 0x06] ∧ w &&& 0xFFFF0000#32 ≠ 0) ∨
      (op ∈ [0x02, 0x03, 0x43, 0x44, 0x52, 0x53] ∧ w &&& 0xFF000000#32 ≠ 0) ∨
      (op ∈ [0x05, 0x07, 0x08, 0x09, 0x55, 0x56] ∧ w &&& 0xFF00FF00#32 ≠ 0) ∨
      (op ∈ [0x12, 0x54] ∧ w &&& 0x0000FF00#32 ≠ 0) →
    ∀ i, encode i ≠ w

/-- R220: each error code is raised only by the commands of its row. -/
def Obligations.ErrorCodesBelongToTheirCommands : Prop :=
  ∀ (s t : State) (i : Instr) (e : ErrCode), s.wf → exec i s = .next t → t.err = some e →
    match e, i with
    | .badRegister, i => i.wellFormed s.params.nreg = false
    | .divisionByZero, .div _ _ rs2 | .divisionByZero, .mod _ _ rs2 => s.val rs2 = 0
    | .magnitudeOrder, .subm _ rs1 rs2 => |s.val rs1| < |s.val rs2|
    | .capacityExceeded, .addm _ _ _ | .capacityExceeded, .mul _ _ _ | .capacityExceeded, .muls _ _ _
    | .capacityExceeded, .mulk _ _ _ | .capacityExceeded, .mulf _ _ _ | .capacityExceeded, .and _ _ _
    | .capacityExceeded, .xor _ _ _ | .capacityExceeded, .shl _ _ | .capacityExceeded, .add _ _ _
    | .capacityExceeded, .sub _ _ _ | .capacityExceeded, .resize _ | .capacityExceeded, .wrlimb _ => True
    | _, _ => False

/-- R52, R223, R224: every command, in every state, completes: it answers a next state that is not busy. -/
def Obligations.EveryCommandCompletes : Prop :=
  ∀ (s : State) (i : Instr), ∃ t, exec i s = .next t ∧ t.pending = none

/-- R224: a failing command changes `ERR`, `STICKY_ERR`, `ERRCMD` and `BUSY`, and nothing else. -/
def Obligations.FailuresArePrecise : Prop :=
  ∀ (s t : State) (i : Instr), exec i s = .next t → t.err ≠ none →
    t = { s with err := t.err, stickyErr := true, errCmd := (encode i).setWidth 64, pending := none }

/-- R223: a successful command clears `ERR` and `BUSY` and keeps `STICKY_ERR`, `CMDLOST` and `ERRCMD`. -/
def Obligations.SuccessKeepsErrorRecord : Prop :=
  ∀ (s t : State) (i : Instr), exec i s = .next t → t.err = none →
    t.pending = none ∧ t.stickyErr = s.stickyErr ∧ t.cmdLost = s.cmdLost ∧ t.errCmd = s.errCmd

/-- R25, R28, R36: the frame of every command. It writes no register but its destination (MOVE also its source), reads
every limb of the others as before, writes `RESULT` and `MULPATH` only where its row says so, and never `ARG0`, `ARG1`,
`CMDLOST`, the parameters or the host. -/
def Obligations.CommandFrame : Prop :=
  ∀ (s t : State) (i : Instr), exec i s = .next t →
    t.params = s.params ∧ t.arg0 = s.arg0 ∧ t.arg1 = s.arg1 ∧ t.cmdLost = s.cmdLost ∧ t.host = s.host ∧
    t.schedule = s.schedule ∧ t.readLog = s.readLog ∧ t.regs.length = s.regs.length ∧
    (∀ r, r ∉ writtenRegs i → t.reg r = s.reg r ∧ ∀ j, t.limbRead r j = s.limbRead r j) ∧
    (writesResult i = false → t.result = s.result) ∧
    (writesMulPath i = false → t.mulPath = s.mulPath)

/-! ### Encoding (spec/30_encoding.md) -/

/-- R80, R81, R84, R85: decoding the word of a command gives the command back, for every command and every field value. -/
def Obligations.DecodeOfEncode : Prop := ∀ i : Instr, decodeWord (encode i) = .ok i

/-- R84, R86: a word that decodes to a command is that command's word; no bit of it is ignored. -/
def Obligations.EncodeOfDecode : Prop := ∀ (w : CmdWord) (i : Instr), decodeWord w = .ok i → encode i = w

/-- R80, R85: the four byte fields of a word, and words written out from the opcode map that decode to their commands. -/
def Obligations.TableWordsDecode : Prop :=
  (∀ (op : BitVec 8) (rd rs1 rs2 : Reg),
    (packWord op rd rs1 rs2).toNat = op.toNat + rd.toNat * 2 ^ 8 + rs1.toNat * 2 ^ 16 + rs2.toNat * 2 ^ 24) ∧
  decodeWord 0x00000000#32 = .ok .nop ∧
  decodeWord 0x00000506#32 = .ok (.wrlimb 5) ∧
  decodeWord 0x03020111#32 = .ok (.subm 1 2 3) ∧
  decodeWord 0x03020123#32 = .ok (.mulf 1 2 3) ∧
  decodeWord 0x03020131#32 = .ok (.mod 1 2 3) ∧
  decodeWord 0x00020144#32 = .ok (.shr 1 2) ∧
  decodeWord 0x03020054#32 = .ok (.cmp 2 3)

/-! ### The steps of the engine and the platform (spec/20_memory.md, spec/70_reset_and_hazards.md)

Who steps next is read from the schedule, which is the model's own field and its choice (log 2). -/

/-- R52, R84: when the engine steps and the pending word decodes, the step is the command's meaning in the state whose
schedule entry is taken; and `withFetchWord` places a word so that the very next step runs it. The schedule is the model's
choice (log 2), and so is `withFetchWord`, which stands for a write to `CMD` (log 5). -/
def Obligations.EngineRunsDecodedCommand : Prop :=
  (∀ (s : State) (w : CmdWord) (i : Instr), s.nextEvent = .engine → s.pending = some w → decodeWord w = .ok i →
    step s = exec i { s with schedule := s.schedule.tail }) ∧
  ∀ (s : State) (w : Nat) (i : Instr), w < 2 ^ 32 → decodeWord (BitVec.ofNat 32 w) = .ok i →
    step (s.withFetchWord 32 w) = exec i { s with pending := some (BitVec.ofNat 32 w) }

/-- R6, R20 to R23, R31: the machine's invariant is kept by every step, of every agent: legal parameters, `NREG` registers,
no negative zero, no zero high limb, `len ≤ cap ≤ MAXLIMBS`, a 32-bit `ERRCMD`. -/
def Obligations.StepKeepsInvariant : Prop :=
  ∀ s t : State, s.wf → step s = .next t → t.wf

/-- The invariant holds after reset, on every instance with legal parameters; the instance of `State.reset` is the model's
choice (log 1). -/
def Obligations.ResetStateIsSound : Prop :=
  State.reset.wf ∧ ∀ p : Params, p.legal = true → (State.resetOf p).wf

/-- R37: the values after reset, on every instance. -/
def Obligations.ResetStateValues : Prop :=
  ∀ p : Params,
    (∀ r : Reg, (State.resetOf p).reg r = { sign := false, limbs := [], cap := 0 }) ∧
    (State.resetOf p).regs.length = p.nreg ∧
    (State.resetOf p).arg0 = 0 ∧ (State.resetOf p).arg1 = 0 ∧ (State.resetOf p).result = 0 ∧
    (State.resetOf p).statusWord = 0 ∧ (State.resetOf p).errCmd = 0 ∧ (State.resetOf p).pending = none ∧
    (State.resetOf p).params = p

/-- R250, R251: a reset step puts the whole block into its reset state and discards a pending command without any of its
effects. The host, the rest of the schedule and what the host has observed stay: that is the model's choice (log 6), of
which R250 and R251 say nothing. -/
def Obligations.ResetStepClearsTheBlock : Prop :=
  ∀ (s : State) (rest : List Event), s.schedule = .reset :: rest →
    step s =
      .next
        { params := s.params
          regs := List.replicate s.params.nreg { sign := false, limbs := [], cap := 0 }
          arg0 := 0
          arg1 := 0
          result := 0
          err := none
          stickyErr := false
          cmdLost := false
          mulPath := .zeroOperand
          errCmd := 0
          pending := none
          host := s.host
          schedule := rest
          readLog := s.readLog }

/-- R52, R251: a pending command completes or is discarded by a reset: within the steps that are scheduled and one more no
command is pending. The schedule is the model's form of R52's weak fairness (log 2). The premise asks that every scheduled
step be safe, which leaves out accesses outside the window and host programs with a `bnz`. -/
def Obligations.PendingCommandCompletesOrIsDiscarded : Prop :=
  ∀ s : State, s.busy = true → (∀ e ∈ s.schedule, e.safe s) →
    ∃ (k : Nat) (t : State), k ≤ s.schedule.length + 1 ∧ Sys2Proof.core.run k s = .next t ∧ t.pending = none

/-! ### The register window and the host (spec/10_state.md, spec/20_memory.md, spec/30_encoding.md)

An access is scheduled (log 2), and the value that a read returns is recorded in `readLog` (log 5): both fields are the model's
own, and its choice. -/

/-- R51: a 64-bit write to `CMD` while idle latches bits 31:0 as the pending command and changes nothing else. -/
def Obligations.AcceptanceLatchesCommand : Prop :=
  ∀ (s : State) (v : Word) (rest : List Event),
    s.schedule = .access (.write (s.params.base + 0x00) 8 v) :: rest → s.pending = none →
    step s = .next { s with pending := some (v.setWidth 32), schedule := rest }

/-- R53: a write to `CMD`, `ARG0` or `ARG1` while busy is dropped and sets only `CMDLOST`. -/
def Obligations.BusyWritesAreDropped : Prop :=
  ∀ (s : State) (v : Word) (offset : Nat) (rest : List Event), offset = 0x00 ∨ offset = 0x08 ∨ offset = 0x10 →
    s.schedule = .access (.write (s.params.base + offset) 8 v) :: rest → s.pending ≠ none →
    step s = .next { s with cmdLost := true, schedule := rest }

/-- R28, R54: a 64-bit write to `ARG0` or `ARG1` while idle writes that register and nothing else. -/
def Obligations.IdleOperandWrites : Prop :=
  ∀ (s : State) (v : Word) (rest : List Event), s.pending = none →
    (s.schedule = .access (.write (s.params.base + 0x08) 8 v) :: rest →
      step s = .next { s with arg0 := v, schedule := rest }) ∧
    (s.schedule = .access (.write (s.params.base + 0x10) 8 v) :: rest →
      step s = .next { s with arg1 := v, schedule := rest })

/-- R29: a write to `STATUS`, busy or idle, clears `STICKY_ERR` where bit 8 is 1 and `CMDLOST` where bit 9 is 1, and changes
nothing else. -/
def Obligations.StatusWriteClearsOnlyItsFlags : Prop :=
  ∀ (s : State) (v : Word) (rest : List Event),
    s.schedule = .access (.write (s.params.base + 0x20) 8 v) :: rest →
    step s =
      .next { s with
        stickyErr := if v.getLsbD 8 then false else s.stickyErr
        cmdLost := if v.getLsbD 9 then false else s.cmdLost
        schedule := rest }

/-- R54, R60: a 64-bit write to a read-only register or a reserved offset changes nothing. -/
def Obligations.OtherOffsetsIgnoreWrites : Prop :=
  ∀ (s : State) (v : Word) (offset : Nat) (rest : List Event),
    offset < 0x100 → offset ∉ [0x00, 0x08, 0x10, 0x20] →
    s.schedule = .access (.write (s.params.base + offset) 8 v) :: rest →
    step s = .next { s with schedule := rest }

/-- R54, R59: a 64-bit read, busy or idle, returns the register's value (`CMD` and the reserved offsets read 0) and changes
nothing. -/
def Obligations.WindowReadsReturnRegisters : Prop :=
  ∀ (s : State) (offset : Nat) (rest : List Event), offset < 0x100 →
    s.schedule = .access (.read (s.params.base + offset) 8) :: rest →
    ∃ v : Word, step s = .next { s with readLog := v :: s.readLog, schedule := rest } ∧
      v =
        if offset = 0x08 then s.arg0
        else if offset = 0x10 then s.arg1
        else if offset = 0x18 then s.result
        else if offset = 0x20 then s.statusWord
        else if offset = 0x28 then s.paramWord
        else if offset = 0x30 then BitVec.ofNat 64 s.params.maxLimbs
        else if offset = 0x38 then BitVec.ofNat 64 s.params.fftThreshold
        else if offset = 0x40 then s.errCmd
        else 0

/-- R55: an access that is not 64 bits wide, or at a misaligned offset, has no effect, sets no flag, and a read of that
kind returns 0. -/
def Obligations.OtherShapesHaveNoEffect : Prop :=
  ∀ (s : State) (offset width : Nat) (v : Word) (rest : List Event),
    offset < 0x100 → width ≠ 8 ∨ offset % 8 ≠ 0 →
    (s.schedule = .access (.write (s.params.base + offset) width v) :: rest →
      step s = .next { s with schedule := rest }) ∧
    (s.schedule = .access (.read (s.params.base + offset) width) :: rest →
      step s = .next { s with readLog := 0 :: s.readLog, schedule := rest })

/-- R29, R220: the fields of the `STATUS` word: `BUSY`, `ERR` by number, `STICKY_ERR`, `CMDLOST`, `MULPATH` by number, and
zero everywhere else. -/
def Obligations.StatusWordFields : Prop :=
  ∀ s : State,
    s.statusWord.getLsbD 0 = s.pending.isSome ∧
    s.statusWord.extractLsb' 1 3 = 0#3 ∧
    s.statusWord.extractLsb' 4 4 =
      (match s.err with
      | none => 0#4
      | some .divisionByZero => 2#4
      | some .illegalCommand => 4#4
      | some .badRegister => 5#4
      | some .capacityExceeded => 6#4
      | some .magnitudeOrder => 7#4) ∧
    s.statusWord.getLsbD 8 = s.stickyErr ∧
    s.statusWord.getLsbD 9 = s.cmdLost ∧
    s.statusWord.extractLsb' 10 2 = 0#2 ∧
    s.statusWord.extractLsb' 12 2 =
      (match s.mulPath with
      | .zeroOperand => 0#2
      | .schoolbook => 1#2
      | .karatsuba => 2#2
      | .fft => 3#2) ∧
    s.statusWord.extractLsb' 14 50 = 0#50

/-- R30: the fields of the `PARAM` word and the values of `MAXLIMBS` and `FFT_THRESHOLD`, on every instance
with legal parameters. -/
def Obligations.ParamWordFields : Prop :=
  ∀ s : State, s.params.legal = true →
    (s.paramWord.extractLsb' 0 16).toNat = s.params.nreg ∧
    (s.paramWord.extractLsb' 16 16).toNat = s.params.schoolbookMax ∧
    s.paramWord.extractLsb' 32 8 = 1#8 ∧
    s.paramWord.extractLsb' 40 24 = 0#24 ∧
    (s.windowValue .maxLimbs).toNat = s.params.maxLimbs ∧
    (s.windowValue .fftThreshold).toNat = s.params.fftThreshold

/-- R228: a W1C write that clears `STICKY_ERR` and the completion of a word that fails, in both orders. The flag ends 1 when
the completion comes last and 0 when the write comes last; both schedules run. -/
def Obligations.ClearAndFailureInBothOrders : Prop :=
  ∀ (s : State) (w : CmdWord) (v : Word), s.pending = some w → (∀ i, encode i ≠ w) → v.getLsbD 8 = true →
    (∃ t, Sys2Proof.core.run 2 { s with schedule := [.access (.write (s.params.base + 0x20) 8 v), .engine] } = .next t ∧
      t.stickyErr = true ∧ t.err = some .illegalCommand) ∧
    ∃ t, Sys2Proof.core.run 2 { s with schedule := [.engine, .access (.write (s.params.base + 0x20) 8 v)] } = .next t ∧
      t.stickyErr = false ∧ t.err = some .illegalCommand

/-- R60: what lies outside the window is the platform's. The model's choice (log 7): an access there is refused by name. -/
def Obligations.PlatformAddressesAreRefused : Prop :=
  ∀ (s : State) (a : Access) (rest : List Event), s.schedule = .access a :: rest →
    a.addr < s.params.base ∨ s.params.base + 0x100 ≤ a.addr →
    step s = .refused (.platformAddress a.addr)

/-- R88: each statement of the host assembly makes its access, on the state whose schedule entry is taken, and goes on to
the next statement; `wait` stays while `BUSY` reads 1; `bnz` tests the value of the latest `read` and goes to the position
after its label. The model's choices: the host, its program and the log of what it read stand in the state (log 5); a label
and a `bnz` take a step (log 17); of a label that stands twice the first occurrence is meant (log 15); a `bnz` with no value
to test, or with a label that stands nowhere, faults (log 8). -/
def Obligations.HostStatementsMakeTheirAccesses : Prop :=
  ∀ (s p : State) (st : HostStmt) (at1 : HostSide), s.nextEvent = .host → p = { s with schedule := s.schedule.tail } →
    s.host.program[s.host.pos]? = some st → at1 = { s.host with pos := s.host.pos + 1 } →
    match st with
    | .command i =>
        step s = .next { p.memWrite (s.params.base + 0x00) 8 ((encode i).setWidth 64) with host := at1 }
    | .cmd imm =>
        step s = .next { p.memWrite (s.params.base + 0x00) 8 ((BitVec.ofInt 32 imm).setWidth 64) with host := at1 }
    | .arg0 imm => step s = .next { p.memWrite (s.params.base + 0x08) 8 (BitVec.ofInt 64 imm) with host := at1 }
    | .arg1 imm => step s = .next { p.memWrite (s.params.base + 0x10) 8 (BitVec.ofInt 64 imm) with host := at1 }
    | .wait =>
        step s =
          .next { p with
            readLog := s.statusWord :: s.readLog
            host := if s.busy then s.host else at1 }
    | .read r =>
        step s =
          .next { p with
            readLog := s.windowValue r :: s.readLog
            host := { at1 with lastRead := some (s.windowValue r) } }
    | .clrflags => step s = .next { p with stickyErr := false, cmdLost := false, host := at1 }
    | .label _ => step s = .next { p with host := at1 }
    | .bnz name =>
        (∀ v, s.host.lastRead = some v → v = 0 → step s = .next { p with host := at1 }) ∧
        (∀ v before after, s.host.lastRead = some v → v ≠ 0 →
          s.host.program = before ++ .label name :: after → .label name ∉ before →
          step s = .next { p with host := { s.host with pos := before.length + 1 } }) ∧
        (s.host.lastRead = none → step s = .fault .branchBeforeRead) ∧
        ∀ v, s.host.lastRead = some v → v ≠ 0 → .label name ∉ s.host.program → step s = .fault (.unknownLabel name)

/-! ### Representation (spec/00_scope.md, spec/40_limb_store.md) -/

/-- R101: for every raw record, the normalizer gives the limbs and the sign of the canonical record of its value. -/
def Obligations.NormalizerGivesCanonicalRecord : Prop :=
  ∀ (sign : Bool) (limbs : List Word) (x : Int), x = (if sign then -(mag limbs : Int) else (mag limbs : Int)) →
    normalizeRaw sign limbs = (decide (x < 0), toLimbs x.natAbs)

/-- R13: the canonical record of an integer denotes it, is normalized and has `ceil(bitlen / 64)` limbs; two normalized
records of equal value have equal sign and limbs. -/
def Obligations.CanonicalRecordIsUnique : Prop :=
  (∀ (x : Int) (c : Nat), (canon x c).val = x ∧ (canon x c).normalized ∧
    (canon x c).limbs.length = (bitlen x.natAbs + 63) / 64 ∧
    ∀ j, (limbAt (canon x c).limbs j).toNat = x.natAbs / 2 ^ (64 * j) % 2 ^ 64) ∧
  ∀ a b : BigReg, a.normalized → b.normalized → a.val = b.val → a.sign = b.sign ∧ a.limbs = b.limbs
end

