-- ==== Sys2Proof/Laws/Limbs.lean ====
section
/-! SUPPORT. Limb sequences and magnitudes: the lemmas of Machine/Limbs.lean, and the normalizer's law
(spec/00_scope.md R13; spec/40_limb_store.md R101). -/

namespace Sys2Proof.Machine

/-- `bitlen` (R12): the least `k` with `x < 2^k`. -/
theorem bitlen_le_iff (x k : Nat) : bitlen x ≤ k ↔ x < 2 ^ k := by
  unfold bitlen
  split
  · next h => subst h; simp
  · next h =>
    rw [Nat.succ_le_iff, Nat.log2_lt h]

theorem lt_two_pow_bitlen (x : Nat) : x < 2 ^ bitlen x := (bitlen_le_iff x _).1 le_rfl

/-- `limbLen` (R13, R26): the least number of limbs that holds `x`. -/
theorem limbLen_le_iff (x n : Nat) : limbLen x ≤ n ↔ x < 2 ^ (64 * n) := by
  rw [← bitlen_le_iff]; unfold limbLen; omega

theorem lt_two_pow_limbLen (x : Nat) : x < 2 ^ (64 * limbLen x) := (limbLen_le_iff x _).1 le_rfl

@[simp] theorem limbLen_zero : limbLen 0 = 0 := by decide

theorem limbLen_eq_zero (x : Nat) : limbLen x = 0 ↔ x = 0 := by
  rw [← Nat.le_zero, limbLen_le_iff]; simp

theorem limbLen_mono {x y : Nat} (h : x ≤ y) : limbLen x ≤ limbLen y :=
  (limbLen_le_iff x _).2 (lt_of_le_of_lt h (lt_two_pow_limbLen y))

theorem pow_limb_succ (n : Nat) : 2 ^ (64 * (n + 1)) = 2 ^ 64 * 2 ^ (64 * n) := by
  rw [← pow_add]; congr 1; ring

@[simp] theorem mag_nil : mag [] = 0 := rfl
@[simp] theorem mag_cons (x : Word) (xs : List Word) : mag (x :: xs) = x.toNat + 2 ^ 64 * mag xs := rfl

/-- A sequence of `n` limbs denotes a magnitude below `2^(64 n)`. -/
theorem mag_lt (a : List Word) : mag a < 2 ^ (64 * a.length) := by
  induction a with
  | nil => simp
  | cons x xs ih =>
    have hx := x.isLt
    rw [mag_cons, List.length_cons, pow_limb_succ]
    have : 2 ^ 64 * mag xs + 2 ^ 64 ≤ 2 ^ 64 * 2 ^ (64 * xs.length) := by
      rw [← Nat.mul_succ]; exact Nat.mul_le_mul_left _ ih
    omega

/-- The magnitude of limbs placed above others. -/
theorem mag_append (a b : List Word) : mag (a ++ b) = mag a + 2 ^ (64 * a.length) * mag b := by
  induction a with
  | nil => simp
  | cons x xs ih => rw [List.cons_append, mag_cons, ih, mag_cons, List.length_cons, pow_limb_succ]; ring

@[simp] theorem mag_replicate_zero (n : Nat) : mag (List.replicate n 0#64) = 0 := by
  induction n with
  | zero => rfl
  | succ n ih => simp [List.replicate_succ, ih]

@[simp] theorem mag_pad (n : Nat) (a : List Word) : mag (pad n a) = mag a := by
  simp [pad, mag_append]

@[simp] theorem length_pad (n : Nat) (a : List Word) : (pad n a).length = max n a.length := by
  simp [pad]; omega

@[simp] theorem length_limbsOf (n x : Nat) : (limbsOf n x).length = n := by
  induction n generalizing x with
  | zero => rfl
  | succ n ih => simp [limbsOf, ih]

/-- The low `n` limbs denote the magnitude modulo `2^(64 n)`. -/
theorem mag_limbsOf (n x : Nat) : mag (limbsOf n x) = x % 2 ^ (64 * n) := by
  induction n generalizing x with
  | zero => simp [limbsOf, Nat.mod_one]
  | succ n ih =>
    rw [limbsOf, mag_cons, ih, BitVec.toNat_ofNat, pow_limb_succ, Nat.mod_mul]

@[simp] theorem length_toLimbs (x : Nat) : (toLimbs x).length = limbLen x := by simp [toLimbs]

@[simp] theorem mag_toLimbs (x : Nat) : mag (toLimbs x) = x := by
  rw [toLimbs, mag_limbsOf, Nat.mod_eq_of_lt (lt_two_pow_limbLen x)]

/-- The normalizer keeps the magnitude (R101). -/
theorem mag_stripZeros (a : List Word) : mag (stripZeros a) = mag a := by
  induction a with
  | nil => rfl
  | cons x xs ih =>
    rw [stripZeros]
    split
    · next h =>
      rw [h] at ih
      split
      · next hx => simp [← ih, hx]
      · simp [← ih]
    · next y ys h => rw [mag_cons, ← h, ih, mag_cons]

/-- The normalizer leaves no zero high limb (R23, R101). -/
theorem getLast_stripZeros (a : List Word) (h : stripZeros a ≠ []) : (stripZeros a).getLast h ≠ 0 := by
  induction a with
  | nil => exact absurd rfl h
  | cons x xs ih =>
    revert h
    rw [stripZeros]
    split
    · split
      · intro h; exact absurd rfl h
      · next hx => intro _; simpa using hx
    · next y ys hs =>
      intro h
      have := ih (by simp [hs])
      simp only [hs] at this
      simpa using this

theorem length_stripZeros_le (a : List Word) : (stripZeros a).length ≤ a.length := by
  induction a with
  | nil => exact le_rfl
  | cons x xs ih =>
    rw [stripZeros]
    split
    · split <;> simp
    · next h => rw [h] at ih; simpa using ih

/-- A limb sequence with no zero high limb has the length of its magnitude. -/
theorem length_eq_limbLen {a : List Word} (h : ∀ h : a ≠ [], a.getLast h ≠ 0) : a.length = limbLen (mag a) := by
  apply le_antisymm _ ((limbLen_le_iff _ _).2 (mag_lt a))
  by_contra hlt
  push Not at hlt
  have hne : a ≠ [] := by rintro rfl; simp at hlt
  have hlast := h hne
  have hsplit := List.dropLast_append_getLast hne
  have hm : mag a < 2 ^ (64 * (a.length - 1)) := (limbLen_le_iff _ _).1 (by omega)
  rw [← hsplit, mag_append] at hm
  simp only [List.length_dropLast, List.length_append, List.length_singleton, mag_cons, mag_nil] at hm
  have : (a.getLast hne).toNat ≠ 0 := fun h0 => hlast (BitVec.eq_of_toNat_eq (by simpa using h0))
  have : 1 ≤ (a.getLast hne).toNat := by omega
  have := Nat.mul_le_mul_left (2 ^ (64 * (a.length - 1))) this
  simp at hm
  omega

/-- The limbs are determined by the magnitude and the length. -/
theorem eq_limbsOf_mag (a : List Word) : a = limbsOf a.length (mag a) := by
  induction a with
  | nil => rfl
  | cons x xs ih =>
    rw [List.length_cons, limbsOf, mag_cons]
    have hx := x.isLt
    congr 1
    · apply BitVec.eq_of_toNat_eq; simp [Nat.add_mod, Nat.mod_eq_of_lt hx]
    · rw [Nat.add_mul_div_left _ _ (by positivity), Nat.div_eq_of_lt hx, Nat.zero_add]; exact ih

/-- R13: a normalized limb sequence is the canonical one of its magnitude. -/
theorem eq_toLimbs_mag {a : List Word} (h : ∀ h : a ≠ [], a.getLast h ≠ 0) : a = toLimbs (mag a) := by
  rw [toLimbs, ← length_eq_limbLen h]; exact eq_limbsOf_mag a

/-- R101: the normalizer gives the canonical limbs of the magnitude. -/
theorem stripZeros_eq_toLimbs (a : List Word) : stripZeros a = toLimbs (mag a) := by
  rw [eq_toLimbs_mag (getLast_stripZeros a), mag_stripZeros]

theorem toLimbs_zero : toLimbs 0 = [] := rfl

theorem getLast_toLimbs (x : Nat) (h : toLimbs x ≠ []) : (toLimbs x).getLast h ≠ 0 := by
  have := getLast_stripZeros (toLimbs x)
  rw [stripZeros_eq_toLimbs, mag_toLimbs] at this
  exact this h

theorem toLimbs_eq_nil (x : Nat) : toLimbs x = [] ↔ x = 0 := by
  rw [← List.length_eq_zero_iff, length_toLimbs, limbLen_eq_zero]

/-- Limb `j` of a magnitude is its bits `64j + 63` to `64j` (R13, R57). -/
theorem limbAt_toNat (a : List Word) (j : Nat) : (limbAt a j).toNat = mag a / 2 ^ (64 * j) % 2 ^ 64 := by
  induction a generalizing j with
  | nil => simp [limbAt]
  | cons x xs ih =>
    have hx := x.isLt
    cases j with
    | zero => simp [limbAt, Nat.add_mod, Nat.mod_eq_of_lt hx]
    | succ j =>
      have h1 : limbAt (x :: xs) (j + 1) = limbAt xs j := by simp [limbAt]
      rw [h1, ih, mag_cons, pow_limb_succ, ← Nat.div_div_eq_div_mul, Nat.add_mul_div_left _ _ (by positivity),
        Nat.div_eq_of_lt hx, Nat.zero_add]

end Sys2Proof.Machine
end

