-- ==== Sys2Proof/Laws/Kernels.lean ====
section
/-! SUPPORT. The arithmetic kernels: one law per kernel, its value as an integer (spec/41_magnitude.md R126 to R128;
spec/42_multiply.md R140, R146, R147; spec/43_divide.md R160). -/

namespace Sys2Proof.Machine

/-- The ripple-carry loop adds the magnitudes and the carry in. -/
theorem mag_rippleAdd (a b : List Word) (h : a.length = b.length) (c : Nat) (hc : c ≤ 1) :
    mag (rippleAdd a b c) = mag a + mag b + c := by
  induction a generalizing b c with
  | nil =>
    obtain rfl : b = [] := List.length_eq_zero_iff.1 h.symm
    simp only [rippleAdd, mag_cons, mag_nil, BitVec.toNat_ofNat]; omega
  | cons x xs ih =>
    cases b with
    | nil => simp at h
    | cons y ys =>
      have hx := x.isLt
      have hy := y.isLt
      rw [rippleAdd, mag_cons, ih ys (by simpa using h) _ (by omega), BitVec.toNat_ofNat, mag_cons, mag_cons]
      omega

/-- R127: the integer that `add_mag` gives. -/
theorem mag_addMag (a b : List Word) : mag (addMag a b) = mag a + mag b := by
  rw [addMag, mag_stripZeros, mag_rippleAdd _ _ (by simp) 0 (by omega)]; simp

/-- One limb below a modulus of limbs: the low limb passes through. -/
theorem emod_limb_split (v u : Int) (P : Nat) (hP : 0 < P) (h0 : 0 ≤ v) (h1 : v < 2 ^ 64) :
    (v + 2 ^ 64 * u) % ((2 ^ 64 * P : Nat) : Int) = v + 2 ^ 64 * (u % P) := by
  have hu := Int.emod_add_mul_ediv u P
  have hlo := Int.emod_nonneg u (b := (P : Int)) (by omega)
  have hhi := Int.emod_lt_of_pos u (b := (P : Int)) (by omega)
  have hv : v + 2 ^ 64 * u = (v + 2 ^ 64 * (u % P)) + ((2 ^ 64 * P : Nat) : Int) * (u / P) := by
    conv_lhs => rw [← hu]
    push_cast; ring
  rw [hv, Int.add_mul_emod_self_left, Int.emod_eq_of_lt (by omega)]
  push_cast
  omega

/-- The ripple-borrow loop subtracts modulo the minuend's limbs. -/
theorem mag_rippleSub (a b : List Word) (h : a.length ≤ b.length) (br : Nat) (hbr : br ≤ 1) :
    (mag (rippleSub a b br) : Int) = ((mag a : Int) - mag b - br) % (2 ^ (64 * a.length) : Nat) := by
  induction a generalizing b br with
  | nil => simp [rippleSub]
  | cons x xs ih =>
    cases b with
    | nil => simp at h
    | cons y ys =>
      have hx := x.isLt
      have hy := y.isLt
      rw [rippleSub, mag_cons, Nat.cast_add, Nat.cast_mul,
        ih ys (by simpa using h) _ (by split <;> omega), List.length_cons, pow_limb_succ, BitVec.toNat_ofInt]
      rw [show ((2 ^ 64 : Nat) : Int) = 2 ^ 64 by norm_num, ← emod_limb_split _ _ _ (by positivity) (by omega) (by omega)]
      congr 1
      simp only [mag_cons, Nat.cast_add, Nat.cast_mul]
      split <;> omega

/-- R128: the integer that `sub_mag` gives, when its precondition holds. -/
theorem mag_subMag (a b : List Word) (h : mag b ≤ mag a) : mag (subMag a b) = mag a - mag b := by
  have h1 := mag_rippleSub a (pad a.length b) (by simp) 0 (by omega)
  have h2 := mag_lt a
  have h3 : (mag a : Int) < (2 ^ (64 * a.length) : Nat) := by exact_mod_cast h2
  rw [mag_pad, Int.emod_eq_of_lt (by omega) (by omega)] at h1
  rw [subMag, mag_stripZeros]
  omega

/-- The compare loop decides on the first part, then on the second. -/
theorem compareDown_append (a b a' b' : List Word) (h : a.length = b.length) :
    compareDown (a ++ a') (b ++ b') = (compareDown a b).then (compareDown a' b') := by
  induction a generalizing b with
  | nil =>
    obtain rfl : b = [] := List.length_eq_zero_iff.1 h.symm
    simp [compareDown]
  | cons x xs ih =>
    cases b with
    | nil => simp at h
    | cons y ys =>
      simp only [List.cons_append, compareDown]
      split
      · exact ih ys (by simpa using h)
      · split <;> rfl

/-- On sequences of one length the compare loop is the order of the magnitudes. -/
theorem compareDown_reverse (a b : List Word) (h : a.length = b.length) :
    compareDown a.reverse b.reverse = compare (mag a) (mag b) := by
  induction a generalizing b with
  | nil =>
    obtain rfl : b = [] := List.length_eq_zero_iff.1 h.symm
    simp [compareDown]
  | cons x xs ih =>
    cases b with
    | nil => simp at h
    | cons y ys =>
      have hx := x.isLt
      have hy := y.isLt
      rw [List.reverse_cons, List.reverse_cons, compareDown_append _ _ _ _ (by simpa using h),
        ih ys (by simpa using h), mag_cons, mag_cons]
      have hxy : x = y ↔ x.toNat = y.toNat := BitVec.toNat_inj.symm
      simp only [compareDown, hxy, Nat.compare_eq_ite_lt]
      repeat' split
      all_goals first | rfl | (exfalso; omega)

/-- R126: on limb sequences with no zero high limb, `cmp_mag` is the order of the magnitudes. -/
theorem cmpMag_eq_compare {a b : List Word} (ha : ∀ h : a ≠ [], a.getLast h ≠ 0) (hb : ∀ h : b ≠ [], b.getLast h ≠ 0) :
    cmpMag a b = compare (mag a) (mag b) := by
  unfold cmpMag
  split
  · next h => exact compareDown_reverse a b h
  · next h =>
    have key : ∀ {a b : List Word}, (∀ h : a ≠ [], a.getLast h ≠ 0) → b.length < a.length → mag b < mag a := by
      intro a b ha hlt
      by_contra hge
      push Not at hge
      have := limbLen_mono hge
      rw [← length_eq_limbLen ha] at this
      have := (limbLen_le_iff (mag b) b.length).2 (mag_lt b)
      omega
    split
    · next hgt => exact (Nat.compare_eq_gt.2 (key ha hgt)).symm
    · next hgt => exact (Nat.compare_eq_lt.2 (key hb (by omega))).symm

theorem length_mulRow (x : Word) (b out : List Word) (c : Nat) : (mulRow x b out c).length = out.length := by
  induction b generalizing out c with
  | nil => cases out <;> simp [mulRow]
  | cons y ys ih => cases out <;> simp [mulRow, ih]

/-- One schoolbook row adds `x * b` and its carry to the output, when the limb that takes the last carry is 0. -/
theorem mag_mulRow (x : Word) (b out : List Word) (c : Nat) (hc : c < 2 ^ 64) (hlen : b.length < out.length)
    (hzero : out[b.length] = 0) : mag (mulRow x b out c) = mag out + x.toNat * mag b + c := by
  induction b generalizing out c with
  | nil =>
    cases out with
    | nil => simp at hlen
    | cons o os =>
      have ho : o = 0#64 := by simpa using hzero
      subst ho
      simp [mulRow]; omega
  | cons y ys ih =>
    cases out with
    | nil => simp at hlen
    | cons o os =>
      have hx := x.isLt
      have hy := y.isLt
      have ho := o.isLt
      have hxy : x.toNat * y.toNat ≤ (2 ^ 64 - 1) * (2 ^ 64 - 1) :=
        Nat.mul_le_mul (by omega) (by omega)
      rw [mulRow, mag_cons, ih os _ (by omega) (by simpa using hlen) (by simpa using hzero), BitVec.toNat_ofNat,
        mag_cons, mag_cons]
      generalize hp : x.toNat * y.toNat = p at *
      rw [Nat.mul_add (x.toNat), hp, Nat.mul_left_comm]
      generalize x.toNat * mag ys = q
      omega

/-- A schoolbook row leaves the limbs above its carry alone. -/
theorem mulRow_getElem_above (x : Word) (b out : List Word) (c : Nat) (j : Nat) (hj : b.length < j)
    (h : j < out.length) : (mulRow x b out c)[j]'(by rw [length_mulRow]; exact h) = out[j] := by
  induction b generalizing out c j with
  | nil =>
    cases out with
    | nil => simp at h
    | cons o os =>
      cases j with
      | zero => simp at hj
      | succ j => simp [mulRow]
  | cons y ys ih =>
    cases out with
    | nil => simp at h
    | cons o os =>
      cases j with
      | zero => simp at hj
      | succ j => simpa [mulRow] using ih os _ j (by simpa using hj) (by simpa using h)

/-- The schoolbook rows add the product to the output. -/
theorem mag_mulRows (b a out : List Word) (hlen : out.length = a.length + b.length)
    (hzero : ∀ j (h : j < out.length), b.length ≤ j → out[j] = 0) :
    mag (mulRows b a out) = mag out + mag a * mag b := by
  induction a generalizing out with
  | nil => simp [mulRows]
  | cons x xs ih =>
    have hlen' : b.length < out.length := by simp at hlen; omega
    have hrow := mag_mulRow x b out 0 (by norm_num) hlen' (hzero _ hlen' le_rfl)
    have hl := length_mulRow x b out 0
    rw [mulRows]
    split
    · next h => rw [h] at hl; simp at hl; omega
    · next o os h =>
      have hos : os.length = xs.length + b.length := by rw [h] at hl; simp at hl hlen; omega
      rw [mag_cons, ih os hos]
      · rw [h, mag_cons] at hrow
        rw [mag_cons]
        have : (x.toNat + 2 ^ 64 * mag xs) * mag b = x.toNat * mag b + 2 ^ 64 * (mag xs * mag b) := by ring
        rw [this]; omega
      · intro j hj hb
        have habove := mulRow_getElem_above x b out 0 (j + 1) (by omega) (by simp at hlen; omega)
        have : (mulRow x b out 0)[j + 1]'(by rw [hl]; simp at hlen; omega) = os[j] := by simp [h]
        rw [← this, habove]
        exact hzero _ _ (by omega)

/-- R146: the schoolbook product is exact. -/
theorem mag_school (a b : List Word) : mag (school a b) = mag a * mag b := by
  rw [school, mag_stripZeros, mag_mulRows]
  · simp
  · simp
  · simp

theorem mag_shiftLimbs (k : Nat) (a : List Word) : mag (shiftLimbs k a) = 2 ^ (64 * k) * mag a := by
  unfold shiftLimbs
  split
  · next h => simp [h]
  · simp [mag_append]

/-- A sequence split at limb `k` (R147). -/
theorem mag_take_drop (k : Nat) (a : List Word) (h : k ≤ a.length) :
    mag a = mag (a.take k) + 2 ^ (64 * k) * mag (a.drop k) := by
  conv_lhs => rw [← List.take_append_drop k a]
  rw [mag_append, List.length_take, Nat.min_eq_left h]

/-- R147: the Karatsuba product is exact. -/
theorem mag_kara (base fuel : Nat) (a b : List Word) : mag (kara base fuel a b) = mag a * mag b := by
  induction fuel generalizing a b with
  | zero => exact mag_school a b
  | succ fuel ih =>
    rw [kara]
    split
    · exact mag_school a b
    · set n := max a.length b.length
      set k := n / 2
      have hkmul : ∀ x y : List Word, mag (if x = [] ∨ y = [] then [] else kara base fuel x y) = mag x * mag y := by
        intro x y
        split
        · next h => rcases h with h | h <;> simp [h]
        · exact ih x y
      have ha := mag_take_drop k (pad n a) (by simp; omega)
      have hb := mag_take_drop k (pad n b) (by simp; omega)
      rw [mag_pad] at ha hb
      dsimp only
      generalize hA0 : mag ((pad n a).take k) = A0 at *
      generalize hA1 : mag ((pad n a).drop k) = A1 at *
      generalize hB0 : mag ((pad n b).take k) = B0 at *
      generalize hB1 : mag ((pad n b).drop k) = B1 at *
      have hz : (A0 + A1) * (B0 + B1) = A0 * B0 + (A1 * B1 + (A0 * B1 + A1 * B0)) := by ring
      rw [mag_addMag, mag_addMag, mag_shiftLimbs, mag_shiftLimbs, mag_subMag, mag_subMag]
      all_goals simp only [hkmul, mag_addMag, mag_stripZeros, hA0, hA1, hB0, hB1, hz]
      · rw [Nat.add_sub_cancel_left, Nat.add_sub_cancel_left, ha, hb, show 64 * (2 * k) = 64 * k + 64 * k by ring,
          pow_add]
        ring
      · exact Nat.le_add_right _ _
      · rw [mag_subMag]
        all_goals simp only [hkmul, mag_addMag, mag_stripZeros, hA0, hA1, hB0, hB1, hz]
        · rw [Nat.add_sub_cancel_left]; exact Nat.le_add_right _ _
        · exact Nat.le_add_right _ _

/-- R140: every path's product is exact when no operand is 0. -/
theorem productMag_eq (base : Nat) (p : MulPath) (a b : List Word) (h : p = .zeroOperand → mag a * mag b = 0) :
    productMag base p a b = mag a * mag b := by
  cases p with
  | zeroOperand => exact (h rfl).symm
  | schoolbook => exact mag_school a b
  | karatsuba => exact mag_kara base _ a b
  | fft => rfl

/-- The division loop: quotient and remainder of the partial remainder by the unshifted divisor (R160). -/
theorem divLoop_spec (i b q r : Nat) (hb : 0 < b) (hr : r < 2 * (b * 2 ^ i)) :
    (divLoop i (b * 2 ^ i) q r).1 = q + r / b ∧ (divLoop i (b * 2 ^ i) q r).2 = r % b := by
  induction i generalizing q r with
  | zero =>
    simp only [pow_zero, mul_one, divLoop] at *
    split
    · next h =>
      have : r / b = 1 := Nat.div_eq_of_lt_le (by omega) (by omega)
      have h2 := Nat.div_add_mod r b
      rw [this] at h2
      simp [this]; omega
    · next h =>
      have h' : r < b := by omega
      simp [Nat.div_eq_of_lt h', Nat.mod_eq_of_lt h']
  | succ i ih =>
    have hshift : (b * 2 ^ (i + 1)) >>> 1 = b * 2 ^ i := by
      rw [Nat.shiftRight_eq_div_pow, pow_succ, pow_one, ← mul_assoc, Nat.mul_div_cancel _ (by norm_num)]
    have hpow : b * 2 ^ (i + 1) = 2 * (b * 2 ^ i) := by rw [pow_succ]; ring
    rw [divLoop, hshift]
    split
    · next h =>
      have := ih (q + 2 ^ (i + 1)) (r - b * 2 ^ (i + 1)) (by omega)
      have hr' : r = (r - b * 2 ^ (i + 1)) + b * 2 ^ (i + 1) := by omega
      rw [this.1, this.2]
      constructor
      · conv_rhs => rw [hr', Nat.add_mul_div_left _ _ hb]
        omega
      · conv_rhs => rw [hr', Nat.add_mul_mod_self_left]
    · next h => exact ih q r (by omega)

/-- R160: quotient and remainder of the binary long division. -/
theorem divmodMag_eq (a b : Nat) (hb : 0 < b) : divmodMag a b = (a / b, a % b) := by
  unfold divmodMag
  split
  · next h => rw [Nat.div_eq_of_lt h, Nat.mod_eq_of_lt h]
  · next h =>
    have ha := lt_two_pow_bitlen a
    have hbl : 2 ^ (bitlen b - 1) ≤ b := by
      by_contra hlt
      push Not at hlt
      have := (bitlen_le_iff b (bitlen b - 1)).2 hlt
      have : bitlen b ≤ 0 := by omega
      rw [bitlen_le_iff] at this; simp at this; omega
    have hle : bitlen b ≤ bitlen a := (bitlen_le_iff b _).2 (by omega)
    have hpos : 1 ≤ bitlen b := by
      by_contra h0
      have := (bitlen_le_iff b 0).1 (by omega)
      simp at this; omega
    have hr : a < 2 * (b * 2 ^ (bitlen a - bitlen b)) := by
      calc a < 2 ^ bitlen a := ha
        _ = 2 * (2 ^ (bitlen b - 1) * 2 ^ (bitlen a - bitlen b)) := by
          rw [← pow_add, ← pow_succ']; congr 1; omega
        _ ≤ _ := by gcongr
    have := divLoop_spec (bitlen a - bitlen b) b 0 a hb hr
    rw [Nat.shiftLeft_eq]
    ext
    · simpa using this.1
    · simpa using this.2

end Sys2Proof.Machine
end

