-- ==== Sys2Proof/Laws/Bits.lean ====
section
/-! SUPPORT. Shifts and two's-complement buffers: one law per kernel (spec/44_bitwise.md R180, R184, R187, R188), and the
two's-complement bits of an integer (spec/00_scope.md R10). -/

namespace Sys2Proof.Machine

/-- Bit `i` of an integer in the infinite two's-complement expansion (R10), by floor division. -/
def intBit (x : Int) (i : Nat) : Bool := decide (x / 2 ^ i % 2 = 1)

/-- Merging disjoint bit ranges by OR adds them. -/
theorem toNat_or_add (hi lo : Word) (t : Nat) (hlo : lo.toNat < 2 ^ t)
    (hhi : ∃ q, hi.toNat = 2 ^ t * q) : (hi ||| lo).toNat = hi.toNat + lo.toNat := by
  obtain ⟨q, hq⟩ := hhi
  rw [BitVec.toNat_or, hq, ← Nat.two_pow_add_eq_or_of_lt hlo]

/-- The bits that a left shift carries in from the limb below. -/
theorem carry_in (prev : Word) (t : Nat) (ht : t < 64) :
    (if t = 0 then 0#64 else prev >>> (64 - t)).toNat = prev.toNat / 2 ^ (64 - t) := by
  split
  · next h => subst h; simp [Nat.div_eq_of_lt prev.isLt]
  · simp [Nat.shiftRight_eq_div_pow]

/-- The left merge loop multiplies by `2^t`. -/
theorem mag_shlMerge (t : Nat) (ht : t < 64) (prev : Word) (a : List Word) :
    mag (shlMerge t prev a) = mag a * 2 ^ t + prev.toNat / 2 ^ (64 - t) := by
  have hpow : 2 ^ 64 = 2 ^ (64 - t) * 2 ^ t := by rw [← pow_add]; congr 1; omega
  induction a generalizing prev with
  | nil => simp [shlMerge, carry_in prev t ht]
  | cons x xs ih =>
    have hprev : prev.toNat / 2 ^ (64 - t) < 2 ^ t := by
      rw [Nat.div_lt_iff_lt_mul (by positivity), mul_comm, ← hpow]; exact prev.isLt
    have hx : (x <<< t).toNat = 2 ^ t * (x.toNat % 2 ^ (64 - t)) := by
      rw [BitVec.toNat_shiftLeft, Nat.shiftLeft_eq, hpow, Nat.mul_mod_mul_right, mul_comm]
    rw [shlMerge, mag_cons, ih, toNat_or_add _ _ t (by rwa [carry_in prev t ht]) ⟨_, hx⟩, carry_in prev t ht, hx,
      mag_cons]
    have hdm := Nat.div_add_mod x.toNat (2 ^ (64 - t))
    generalize x.toNat % 2 ^ (64 - t) = r at *
    generalize hqq : x.toNat / 2 ^ (64 - t) = q at *
    rw [← hdm, Nat.mul_add, hpow]
    ring

/-- R188, R185: `shl_mag` multiplies by `2^k`. -/
theorem mag_shlMag (a : List Word) (k : Nat) : mag (shlMag a k) = mag a * 2 ^ k := by
  rw [shlMag, mag_stripZeros, mag_append, mag_replicate_zero, mag_shlMerge _ (by omega), List.length_replicate]
  have : 2 ^ k = 2 ^ (64 * (k / 64)) * 2 ^ (k % 64) := by rw [← pow_add]; congr 1; omega
  rw [this]; simp; ring

/-- The lowest limb. -/
theorem mag_mod_limb (a : List Word) : mag a % 2 ^ 64 = (a.headD 0#64).toNat := by
  cases a with
  | nil => simp
  | cons x xs => simp [Nat.add_mod, Nat.mod_eq_of_lt x.isLt]

/-- The right merge loop divides by `2^t`. -/
theorem mag_shrMerge (t : Nat) (ht : t < 64) (a : List Word) : mag (shrMerge t a) = mag a / 2 ^ t := by
  have hpow : 2 ^ 64 = 2 ^ t * 2 ^ (64 - t) := by rw [← pow_add]; congr 1; omega
  induction a with
  | nil => simp [shrMerge]
  | cons x xs ih =>
    have hlow : (x >>> t).toNat < 2 ^ (64 - t) := by
      rw [BitVec.toNat_ushiftRight, Nat.shiftRight_eq_div_pow, Nat.div_lt_iff_lt_mul (by positivity), mul_comm, ← hpow]
      exact x.isLt
    have hhi : (if t = 0 then 0#64 else xs.headD 0#64 <<< (64 - t)).toNat = 2 ^ (64 - t) * (mag xs % 2 ^ t) := by
      split
      · next h => subst h; simp [Nat.mod_one]
      · rw [BitVec.toNat_shiftLeft, Nat.shiftLeft_eq, ← mag_mod_limb, hpow, Nat.mul_mod_mul_right, mul_comm,
          Nat.mod_mul_right_mod]
    have hor : (x >>> t ||| (if t = 0 then 0#64 else xs.headD 0#64 <<< (64 - t))).toNat
        = x.toNat / 2 ^ t + 2 ^ (64 - t) * (mag xs % 2 ^ t) := by
      rw [BitVec.or_comm, toNat_or_add _ _ (64 - t) hlow ⟨_, hhi⟩, hhi, BitVec.toNat_ushiftRight,
        Nat.shiftRight_eq_div_pow, add_comm]
    rw [shrMerge, mag_cons, ih, hor, mag_cons]
    have hdm := Nat.mod_add_div (mag xs) (2 ^ t)
    generalize mag xs % 2 ^ t = r at *
    generalize mag xs / 2 ^ t = q at *
    rw [← hdm, hpow, mul_assoc (2 ^ t) (2 ^ (64 - t)) (r + _), Nat.add_mul_div_left _ _ (by positivity)]
    ring

/-- R188, R186: `shr_mag` divides by `2^k`, rounding down. -/
theorem mag_shrMag (a : List Word) (k : Nat) : mag (shrMag a k) = mag a / 2 ^ k := by
  have hk : 2 ^ k = 2 ^ (64 * (k / 64)) * 2 ^ (k % 64) := by rw [← pow_add]; congr 1; omega
  rw [shrMag]
  split
  · next h =>
    rw [mag_nil, eq_comm, Nat.div_eq_of_lt]
    exact lt_of_lt_of_le (mag_lt a) (Nat.pow_le_pow_right (by norm_num) (by omega))
  · next h =>
    have hd := mag_take_drop (k / 64) a (by omega)
    have hl := mag_lt (a.take (k / 64))
    rw [List.length_take, Nat.min_eq_left (by omega)] at hl
    rw [mag_stripZeros, mag_shrMerge _ (by omega), hk, ← Nat.div_div_eq_div_mul]
    conv_rhs => rw [hd]
    rw [Nat.add_mul_div_left _ _ (by positivity), Nat.div_eq_of_lt hl, Nat.zero_add]

@[simp] theorem length_incBuffer (a : List Word) : (incBuffer a).length = a.length := by
  induction a with
  | nil => rfl
  | cons x xs ih => rw [incBuffer]; split <;> simp [ih]

/-- Adding 1 across a buffer, the carry out dropped. -/
theorem mag_incBuffer (a : List Word) : mag (incBuffer a) = (mag a + 1) % 2 ^ (64 * a.length) := by
  induction a with
  | nil => simp [incBuffer]
  | cons x xs ih =>
    have hx := x.isLt
    have hxs := mag_lt xs
    rw [incBuffer, List.length_cons, pow_limb_succ]
    split
    · next h =>
      have hx' : x.toNat = 2 ^ 64 - 1 := by
        have := congrArg BitVec.toNat h
        simp at this; omega
      rw [mag_cons, ih, mag_cons, hx', show 2 ^ 64 - 1 + 2 ^ 64 * mag xs + 1 = 2 ^ 64 * (mag xs + 1) by omega,
        Nat.mul_mod_mul_left]
      simp
    · next h =>
      have hx' : (x + 1#64).toNat = x.toNat + 1 := by
        have : x.toNat ≠ 2 ^ 64 - 1 := by
          intro h'; apply h; apply BitVec.eq_of_toNat_eq; simp [h']
        simp; omega
      have hlt : x.toNat + 1 < 2 ^ 64 := by have := (x + 1#64).isLt; omega
      rw [mag_cons, hx', mag_cons, Nat.mod_eq_of_lt]
      · omega
      · have := Nat.mul_le_mul_left (2 ^ 64) (Nat.succ_le_of_lt hxs)
        rw [Nat.mul_succ] at this; omega

/-- The complement of a buffer. -/
theorem mag_map_not (a : List Word) : mag (a.map fun x => ~~~x) + mag a + 1 = 2 ^ (64 * a.length) := by
  induction a with
  | nil => simp
  | cons x xs ih =>
    have hx := x.isLt
    rw [List.map_cons, mag_cons, mag_cons, List.length_cons, pow_limb_succ, ← ih, BitVec.toNat_not]
    omega

@[simp] theorem length_toTc (n : Nat) (r : BigReg) : (toTc n r).length = max n r.len := by
  rw [toTc]; split <;> simp [BigReg.len]

/-- R180: the buffer of an operand is its value modulo `2^(64 n)`. -/
theorem mag_toTc (n : Nat) (r : BigReg) (hn : r.len ≤ n) :
    (mag (toTc n r) : Int) = r.val % (2 ^ (64 * n) : Nat) := by
  have hm : mag r.limbs < 2 ^ (64 * n) :=
    lt_of_lt_of_le (mag_lt r.limbs) (Nat.pow_le_pow_right (by norm_num) (Nat.mul_le_mul_left _ hn))
  have hlen : (pad n r.limbs).length = n := by simp; exact hn
  rw [toTc, BigReg.val, signedVal]
  split
  · have h := mag_map_not (pad n r.limbs)
    rw [hlen, mag_pad] at h
    rw [mag_incBuffer, List.length_map, hlen]
    have : mag ((pad n r.limbs).map fun x => ~~~x) + 1 = 2 ^ (64 * n) - mag r.limbs := by omega
    rw [this, Int.natCast_emod, Nat.cast_sub hm.le, Int.sub_eq_add_neg, Int.add_emod_left]
  · rw [mag_pad, Int.emod_eq_of_lt (by omega) (by exact_mod_cast hm)]

theorem testBit_mag_cons (x : Word) (xs : List Word) (i : Nat) :
    (mag (x :: xs)).testBit i = if i < 64 then x.toNat.testBit i else (mag xs).testBit (i - 64) := by
  rw [mag_cons, Nat.add_comm, Nat.testBit_two_pow_mul_add _ x.isLt]

/-- A limb-wise operation acts bit by bit. -/
theorem testBit_mag_zipWith (op : Word → Word → Word) (opb : Bool → Bool → Bool)
    (hop : ∀ x y : Word, ∀ i < 64, (op x y).toNat.testBit i = opb (x.toNat.testBit i) (y.toNat.testBit i))
    (a b : List Word) (h : a.length = b.length) (i : Nat) (hi : i < 64 * a.length) :
    (mag (List.zipWith op a b)).testBit i = opb ((mag a).testBit i) ((mag b).testBit i) := by
  induction a generalizing b i with
  | nil => simp at hi
  | cons x xs ih =>
    cases b with
    | nil => simp at h
    | cons y ys =>
      rw [List.zipWith_cons_cons, testBit_mag_cons, testBit_mag_cons, testBit_mag_cons]
      split
      · next h64 => exact hop x y i h64
      · next h64 => exact ih ys (by simpa using h) _ (by simp at hi; omega)

/-- The low bits of an integer are those of its residue. -/
theorem intBit_eq_testBit_emod (x : Int) (i n : Nat) (h : i < n) :
    intBit x i = (x % (2 ^ n : Nat)).toNat.testBit i := by
  have hmod : (x % (2 ^ n : Nat)) / 2 ^ i % 2 = x / 2 ^ i % 2 := by
    obtain ⟨d, rfl⟩ : ∃ d, n = i + (d + 1) := ⟨n - i - 1, by omega⟩
    have hx := Int.emod_add_mul_ediv x (2 ^ (i + (d + 1)) : Nat)
    set q := x / (2 ^ (i + (d + 1)) : Nat)
    set r := x % (2 ^ (i + (d + 1)) : Nat)
    have : x = r + 2 ^ i * (2 * (2 ^ d * q)) := by
      rw [← hx]; push_cast; rw [pow_add, pow_succ]; ring
    rw [this, Int.add_mul_ediv_left _ _ (by positivity), Int.add_mul_emod_self_left]
  have hnn : 0 ≤ x % (2 ^ n : Nat) := Int.emod_nonneg _ (by positivity)
  obtain ⟨m, hm⟩ := Int.eq_ofNat_of_zero_le hnn
  rw [intBit, ← hmod, hm, Int.toNat_natCast, Nat.testBit_eq_decide_div_mod_eq]
  congr 1
  rw [eq_iff_iff]
  norm_cast

/-- The bits of an integer above its magnitude are its sign. -/
theorem intBit_above (x : Int) (i n : Nat) (h : n ≤ i) (hlo : -(2 ^ n : Nat) ≤ x) (hhi : x < (2 ^ n : Nat)) :
    intBit x i = decide (x < 0) := by
  have hp : ((2 ^ n : Nat) : Int) ≤ 2 ^ i := by exact_mod_cast Nat.pow_le_pow_right (by norm_num) h
  rw [intBit]
  by_cases hx : x < 0
  · have : x / 2 ^ i = -1 := by
      rw [Int.ediv_eq_iff_of_pos (by positivity)]
      constructor <;> linarith
    simp [this, hx]
  · have : x / 2 ^ i = 0 := Int.ediv_eq_zero_of_lt (by omega) (by omega)
    simp [this]; omega

/-- R187: the value law of the logical operations, bit by bit. -/
theorem intBit_logicalVal (op : Word → Word → Word) (opb : Bool → Bool → Bool)
    (hop : ∀ x y : Word, ∀ i < 64, (op x y).toNat.testBit i = opb (x.toNat.testBit i) (y.toNat.testBit i))
    (h00 : opb false false = false) (a b : BigReg) (ha : a.sign = decide (a.val < 0)) (hb : b.sign = decide (b.val < 0))
    (i : Nat) : intBit (logicalVal op opb a b) i = opb (intBit a.val i) (intBit b.val i) := by
  have hbound : ∀ (r : BigReg) (n : Nat), r.len ≤ n → -(2 ^ (64 * n) : Nat) ≤ r.val ∧ r.val < (2 ^ (64 * n) : Nat) := by
    intro r n hn
    have hm : mag r.limbs < 2 ^ (64 * n) :=
      lt_of_lt_of_le (mag_lt r.limbs) (Nat.pow_le_pow_right (by norm_num) (Nat.mul_le_mul_left _ hn))
    rw [BigReg.val, signedVal]
    split <;> constructor <;> omega
  have hzero : ∀ r : BigReg, r.len = 0 → r.val = 0 := by
    intro r hr
    rw [BigReg.val, List.length_eq_zero_iff.1 hr, mag_nil, signedVal]; simp
  have hbit0 : ∀ i, intBit 0 i = false := by intro i; simp [intBit]
  unfold logicalVal
  dsimp only
  split
  · next hn =>
    rw [hzero a (by omega), hzero b (by omega), hbit0, h00]
  · next hn =>
    set n := max a.len b.len
    have hla : (toTc n a).length = n := by simp; omega
    have hlb : (toTc n b).length = n := by simp; omega
    set r := List.zipWith op (toTc n a) (toTc n b) with hr
    have hlen : r.length = n := by rw [hr, List.length_zipWith, hla, hlb, min_self]
    have hm := mag_lt r
    rw [hlen] at hm
    have hmz : ((mag r : Nat) : Int) < (2 ^ (64 * n) : Nat) := by exact_mod_cast hm
    set s := opb a.sign b.sign with hs
    have hv : (if s = true then -((2 ^ (64 * n) : Int) - mag r) else (mag r : Int))
        = mag r - (if s = true then ((2 ^ (64 * n) : Nat) : Int) else 0) := by
      split
      · push_cast; ring
      · ring
    rw [hv]
    rcases lt_or_ge i (64 * n) with hi | hi
    · rw [intBit_eq_testBit_emod _ i _ hi, intBit_eq_testBit_emod a.val i _ hi, intBit_eq_testBit_emod b.val i _ hi,
        ← mag_toTc n a (by omega), ← mag_toTc n b (by omega), Int.toNat_natCast, Int.toNat_natCast,
        ← testBit_mag_zipWith op opb hop _ _ (by rw [hla, hlb]) i (by rw [hla]; exact hi)]
      congr 1
      split
      · rw [Int.sub_emod_right, Int.emod_eq_of_lt (by omega) hmz, Int.toNat_natCast]
      · rw [sub_zero, Int.emod_eq_of_lt (by omega) hmz, Int.toNat_natCast]
    · have hA := hbound a n (by omega)
      have hB := hbound b n (by omega)
      rw [intBit_above a.val i _ hi hA.1 hA.2, intBit_above b.val i _ hi hB.1 hB.2, ← ha, ← hb, ← hs,
        intBit_above _ i _ hi (by split <;> omega) (by split <;> omega)]
      split
      · next h => rw [h]; simp; exact_mod_cast hm
      · next h => simp at h; rw [h]; simp

/-- The library's `Int.testBit` is the bit of R10. -/
theorem testBit_eq_intBit (x : Int) (i : Nat) : x.testBit i = intBit x i := by
  cases x with
  | ofNat m =>
    rw [intBit, Int.testBit, Nat.testBit_eq_decide_div_mod_eq]
    congr 1
    rw [eq_iff_iff, Int.ofNat_eq_natCast]
    norm_cast
  | negSucc m =>
    have h : (Int.negSucc m) / 2 ^ i = Int.negSucc (m / 2 ^ i) := by
      have hq : ((m : Int) / 2 ^ i) = ((m / 2 ^ i : Nat) : Int) := by norm_cast
      have := Int.negSucc_ediv m (b := 2 ^ i) (by positivity)
      rw [this, show (m : Int).ediv (2 ^ i) = (m : Int) / 2 ^ i from rfl, hq]
      rfl
    rw [intBit, Int.testBit, h, Nat.testBit_eq_decide_div_mod_eq, ← decide_not]
    congr 1
    rw [eq_iff_iff]
    omega

/-- An integer is determined by its two's-complement bits. -/
theorem eq_of_testBit {x y : Int} (h : ∀ i, x.testBit i = y.testBit i) : x = y := by
  cases x with
  | ofNat m =>
    cases y with
    | ofNat n =>
      have : m = n := Nat.eq_of_testBit_eq (fun i => by simpa [Int.testBit] using h i)
      rw [this]
    | negSucc n =>
      exfalso
      have h1 := h (m + n)
      have hm : m.testBit (m + n) = false := Nat.testBit_lt_two_pow (lt_of_le_of_lt (Nat.le_add_right m n) Nat.lt_two_pow_self)
      have hn : n.testBit (m + n) = false := Nat.testBit_lt_two_pow (lt_of_le_of_lt (Nat.le_add_left n m) Nat.lt_two_pow_self)
      simp [Int.testBit, hm, hn] at h1
  | negSucc m =>
    cases y with
    | ofNat n =>
      exfalso
      have h1 := h (m + n)
      have hm : m.testBit (m + n) = false := Nat.testBit_lt_two_pow (lt_of_le_of_lt (Nat.le_add_right m n) Nat.lt_two_pow_self)
      have hn : n.testBit (m + n) = false := Nat.testBit_lt_two_pow (lt_of_le_of_lt (Nat.le_add_left n m) Nat.lt_two_pow_self)
      simp [Int.testBit, hm, hn] at h1
    | negSucc n =>
      have : m = n := Nat.eq_of_testBit_eq (fun i => by simpa [Int.testBit] using h i)
      rw [this]
end Sys2Proof.Machine
end

