-- ==== Sys2Proof/Laws/Registers.lean ====
section
/-! SUPPORT. Registers as integers: what a sound register's fields are in terms of its value (spec/00_scope.md R13;
spec/10_state.md R21 to R23), and the laws of the kernels that work on whole registers. -/

namespace Sys2Proof.Machine

/-- R23 in the form the limb lemmas use. -/
theorem BigReg.normalized_getLast {r : BigReg} (h : r.normalized) (hne : r.limbs ≠ []) : r.limbs.getLast hne ≠ 0 := by
  intro h0
  exact h.2 (by rw [List.getLast?_eq_some_getLast hne, h0]; rfl)

theorem getLast?_ne_zero {a : List Word} (h : ∀ h : a ≠ [], a.getLast h ≠ 0) : a.getLast? ≠ some 0#64 := by
  intro h0
  have hne : a ≠ [] := by rintro rfl; simp at h0
  rw [List.getLast?_eq_some_getLast hne] at h0
  exact h hne (Option.some.inj h0)

theorem natAbs_signedVal (s : Bool) (m : Nat) : (signedVal s m).natAbs = m := by
  cases s <;> simp [signedVal]

/-- The magnitude of a register is the absolute value of its integer. -/
theorem BigReg.mag_eq_natAbs (r : BigReg) : mag r.limbs = r.val.natAbs := (natAbs_signedVal _ _).symm

theorem signedVal_eq_zero (s : Bool) (m : Nat) : signedVal s m = 0 ↔ m = 0 := by
  cases s <;> simp [signedVal]

/-- A register of length 0 holds 0; a normalized register holds 0 only in length 0 (R23). -/
theorem BigReg.len_eq_limbLen {r : BigReg} (h : r.normalized) : r.limbs.length = limbLen r.val.natAbs := by
  rw [← BigReg.mag_eq_natAbs]; exact length_eq_limbLen (BigReg.normalized_getLast h)

theorem BigReg.limbs_eq_toLimbs {r : BigReg} (h : r.normalized) : r.limbs = toLimbs r.val.natAbs := by
  rw [← BigReg.mag_eq_natAbs]; exact eq_toLimbs_mag (BigReg.normalized_getLast h)

theorem BigReg.len_eq_zero_iff {r : BigReg} (h : r.normalized) : r.len = 0 ↔ r.val = 0 := by
  rw [BigReg.len, BigReg.len_eq_limbLen h, limbLen_eq_zero, Int.natAbs_eq_zero]

/-- The sign bit is set exactly on a negative value (R21, R22). -/
theorem BigReg.sign_eq {r : BigReg} (h : r.normalized) : r.sign = decide (r.val < 0) := by
  have hmag : r.sign = true → mag r.limbs ≠ 0 := by
    intro hs h0
    have : r.limbs = [] := by rw [BigReg.limbs_eq_toLimbs h, ← BigReg.mag_eq_natAbs, h0, toLimbs_zero]
    rw [h.1 this] at hs; exact absurd hs (by decide)
  cases hs : r.sign
  · simp [BigReg.val, signedVal, hs]
  · have := hmag hs
    simp [BigReg.val, signedVal, hs]; omega

@[simp] theorem val_canon (x : Int) (c : Nat) : (canon x c).val = x := by
  simp only [BigReg.val, canon, mag_toLimbs, signedVal, decide_eq_true_eq]
  split <;> omega

/-- The canonical record is normalized (R13, R22, R23). -/
theorem canon_normalized (x : Int) (c : Nat) : (canon x c).normalized := by
  refine ⟨fun h => ?_, getLast?_ne_zero (getLast_toLimbs _)⟩
  have : x.natAbs = 0 := (toLimbs_eq_nil _).1 h
  simp [canon]; omega

@[simp] theorem len_canon (x : Int) (c : Nat) : (canon x c).len = limbLen x.natAbs := by simp [canon, BigReg.len]

@[simp] theorem zero_val : BigReg.zero.val = 0 := by decide

theorem zero_normalized : BigReg.zero.normalized := by decide

/-- The zero value is sound on every instance. -/
theorem zero_wf (maxLimbs : Nat) : BigReg.zero.wf maxLimbs :=
  ⟨zero_normalized, by decide, Nat.zero_le _⟩

/-- R207: sign-magnitude addition is exact. -/
theorem addSigned_eq {a b : List Word} (ha : ∀ h : a ≠ [], a.getLast h ≠ 0) (hb : ∀ h : b ≠ [], b.getLast h ≠ 0)
    (sa sb : Bool) : addSigned a sa b sb = signedVal sa (mag a) + signedVal sb (mag b) := by
  unfold addSigned
  split
  · next h =>
    subst h
    rw [mag_addMag]
    cases sa <;> simp [signedVal]; omega
  · next h =>
    rw [cmpMag_eq_compare ha hb]
    have hne : sb = !sa := by cases sa <;> cases sb <;> simp_all
    subst hne
    rcases lt_trichotomy (mag a) (mag b) with hlt | heq | hgt
    · rw [Nat.compare_eq_lt.2 hlt]
      dsimp only
      rw [mag_subMag _ _ hlt.le]
      cases sa <;> simp [signedVal] <;> omega
    · rw [heq, Nat.compare_eq_eq.2 rfl]
      cases sa <;> simp [signedVal]
    · rw [Nat.compare_eq_gt.2 hgt]
      dsimp only
      rw [mag_subMag _ _ hgt.le]
      cases sa <;> simp [signedVal] <;> omega

/-- R204: the signed comparison is the order of the integers. -/
theorem cmpSigned_eq_compare {a b : BigReg} (ha : a.normalized) (hb : b.normalized) :
    cmpSigned a b = compare a.val b.val := by
  have hsa := BigReg.sign_eq ha
  have hsb := BigReg.sign_eq hb
  unfold cmpSigned
  rw [cmpMag_eq_compare (BigReg.normalized_getLast ha) (BigReg.normalized_getLast hb), Nat.compare_eq_ite_lt]
  have hva : a.val = if a.sign then -(mag a.limbs : Int) else (mag a.limbs : Int) := rfl
  have hvb : b.val = if b.sign then -(mag b.limbs : Int) else (mag b.limbs : Int) := rfl
  have hc : compare a.val b.val = if a.val < b.val then .lt else if a.val = b.val then .eq else .gt := rfl
  rw [hc]
  cases ha' : a.sign <;> cases hb' : b.sign <;> rw [ha'] at hva hsa <;> rw [hb'] at hvb hsb <;>
    simp at hva hvb hsa hsb <;> simp <;> split_ifs <;> first | rfl | omega

/-- R122, R204: a comparison result in `RESULT` is `trunc_64` of the difference's sign. -/
theorem orderWord_compare (a b : Int) : orderWord (compare a b) = BitVec.ofInt 64 (a - b).sign := by
  rcases lt_trichotomy a b with h | h | h
  · rw [show compare a b = .lt from compare_lt_iff_lt.2 h, Int.sign_eq_neg_one_of_neg (by omega)]; rfl
  · rw [h, show compare b b = .eq from compare_eq_iff_eq.2 rfl, sub_self]; rfl
  · rw [show compare a b = .gt from compare_gt_iff_gt.2 h, Int.sign_eq_one_of_pos (by omega)]; rfl

/-- R110: the bit length from the length and the top limb. -/
theorem limbsBitLength_eq {a : List Word} (h : ∀ h : a ≠ [], a.getLast h ≠ 0) : limbsBitLength a = bitlen (mag a) := by
  unfold limbsBitLength
  split
  · next h0 => rw [List.length_eq_zero_iff.1 h0]; decide
  · next h0 =>
    have hne : a ≠ [] := by rintro rfl; simp at h0
    set n := a.length - 1
    have htop := limbAt_toNat a n
    have hlt := mag_lt a
    have hlen := length_eq_limbLen h
    have hge : 2 ^ (64 * n) ≤ mag a := by
      by_contra hc
      push Not at hc
      have := (limbLen_le_iff (mag a) n).2 hc
      omega
    have hq : mag a / 2 ^ (64 * n) < 2 ^ 64 := by
      rw [Nat.div_lt_iff_lt_mul (by positivity), ← pow_add, show 64 + 64 * n = 64 * a.length by omega]; exact hlt
    rw [Nat.mod_eq_of_lt hq] at htop
    have hb : bitlen (limbAt a n).toNat ≤ 64 := (bitlen_le_iff _ _).2 (limbAt a n).isLt
    rw [clz64, show 64 - (64 - bitlen (limbAt a n).toNat) = bitlen (limbAt a n).toNat by omega, htop]
    apply le_antisymm
    · have hbl := lt_two_pow_bitlen (mag a)
      have h1 : 64 * n ≤ bitlen (mag a) := by
        by_contra hc
        have := (bitlen_le_iff (mag a) (64 * n - 1)).1 (by omega)
        have : 2 ^ (64 * n - 1) ≤ 2 ^ (64 * n) := Nat.pow_le_pow_right (by norm_num) (by omega)
        omega
      have : bitlen (mag a / 2 ^ (64 * n)) ≤ bitlen (mag a) - 64 * n := by
        rw [bitlen_le_iff, Nat.div_lt_iff_lt_mul (by positivity), ← pow_add, Nat.sub_add_cancel h1]; exact hbl
      omega
    · rw [bitlen_le_iff]
      have h2 := lt_two_pow_bitlen (mag a / 2 ^ (64 * n))
      rw [Nat.div_lt_iff_lt_mul (by positivity), ← pow_add] at h2
      rwa [show n * 64 + bitlen (mag a / 2 ^ (64 * n)) = bitlen (mag a / 2 ^ (64 * n)) + 64 * n by ring]

theorem mag_set (a : List Word) (j : Nat) (v : Word) (h : j < a.length) :
    mag (a.set j v) + (limbAt a j).toNat * 2 ^ (64 * j) = mag a + v.toNat * 2 ^ (64 * j) := by
  induction a generalizing j with
  | nil => simp at h
  | cons x xs ih =>
    cases j with
    | zero => simp [limbAt]; omega
    | succ j =>
      have hj : j < xs.length := by simpa using h
      have h1 : limbAt (x :: xs) (j + 1) = limbAt xs j := by simp [limbAt]
      have := ih j hj
      rw [List.set_cons_succ, mag_cons, mag_cons, h1, pow_limb_succ]
      have e1 : ∀ c : Nat, c * (2 ^ 64 * 2 ^ (64 * j)) = 2 ^ 64 * (c * 2 ^ (64 * j)) := by intro c; ring
      rw [e1, e1]; omega

theorem limbAt_pad (n : Nat) (a : List Word) (j : Nat) : limbAt (pad n a) j = limbAt a j := by
  apply BitVec.eq_of_toNat_eq
  rw [limbAt_toNat, limbAt_toNat, mag_pad]

/-- R107: the magnitude after one limb is replaced. -/
theorem mag_replaceLimb (a : List Word) (j : Nat) (v : Word) :
    mag (replaceLimb a j v) + (limbAt a j).toNat * 2 ^ (64 * j) = mag a + v.toNat * 2 ^ (64 * j) := by
  have := mag_set (pad (j + 1) a) j v (by simp)
  rwa [limbAt_pad, mag_pad] at this

theorem limbLen_replaceLimb (a : List Word) (j : Nat) (v : Word) :
    limbLen (mag (replaceLimb a j v)) ≤ max (j + 1) a.length := by
  have := (limbLen_le_iff _ _).2 (mag_lt (replaceLimb a j v))
  simpa [replaceLimb] using this

/-- R149, R151: the signed product under the XOR of the signs. -/
theorem signedVal_xor_mul (sa sb : Bool) (x y : Nat) :
    signedVal (sa ^^ sb) (x * y) = signedVal sa x * signedVal sb y := by
  cases sa <;> cases sb <;> simp [signedVal]

/-- R163: quotient and remainder of the signed division rule, for a divisor that is not 0. -/
theorem divmodSigned_eq {a b : BigReg} (ha : a.normalized) (hb : b.normalized) (h0 : b.val ≠ 0) :
    divmodSigned a b = .ok (a.val.tdiv b.val, a.val.tmod b.val) := by
  unfold divmodSigned
  rw [if_neg (by rwa [BigReg.len_eq_zero_iff hb])]
  split
  · next h => rw [(BigReg.len_eq_zero_iff ha).1 h]; simp
  · have hpos : 0 < mag b.limbs := by
      rw [BigReg.mag_eq_natAbs]; omega
    dsimp only
    rw [divmodMag_eq _ _ hpos]
    simp only [BigReg.val, signedVal, Int.ofNat_tdiv, Int.ofNat_tmod]
    cases a.sign <;> cases b.sign <;>
      simp only [Bool.xor_self, Bool.false_eq_true, Bool.xor_false, Bool.xor_true, Bool.not_false, if_true,
        if_false, Int.neg_tdiv, Int.tdiv_neg, Int.neg_tmod, Int.tmod_neg, neg_neg]

/-- R163: a zero divisor raises DivisionByZero, for every dividend. -/
theorem divmodSigned_zero {a b : BigReg} (hb : b.normalized) (h0 : b.val = 0) :
    divmodSigned a b = .error .divisionByZero := by
  unfold divmodSigned
  rw [if_pos ((BigReg.len_eq_zero_iff hb).2 h0)]

/-- R181, R187: AND of the integers. -/
theorem logicalVal_and {a b : BigReg} (ha : a.normalized) (hb : b.normalized) :
    logicalVal (fun x y => x &&& y) (fun p q => p && q) a b = Int.land a.val b.val := by
  apply eq_of_testBit
  intro i
  rw [Int.testBit_land, testBit_eq_intBit, testBit_eq_intBit, testBit_eq_intBit]
  exact intBit_logicalVal _ _ (by intro x y i _; simp) rfl a b (BigReg.sign_eq ha) (BigReg.sign_eq hb) i

/-- R182, R187: OR of the integers. -/
theorem logicalVal_or {a b : BigReg} (ha : a.normalized) (hb : b.normalized) :
    logicalVal (fun x y => x ||| y) (fun p q => p || q) a b = Int.lor a.val b.val := by
  apply eq_of_testBit
  intro i
  rw [Int.testBit_lor, testBit_eq_intBit, testBit_eq_intBit, testBit_eq_intBit]
  exact intBit_logicalVal _ _ (by intro x y i _; simp) rfl a b (BigReg.sign_eq ha) (BigReg.sign_eq hb) i

/-- R183, R187: XOR of the integers. -/
theorem logicalVal_xor {a b : BigReg} (ha : a.normalized) (hb : b.normalized) :
    logicalVal (fun x y => x ^^^ y) (fun p q => p ^^ q) a b = Int.xor a.val b.val := by
  apply eq_of_testBit
  intro i
  rw [Int.testBit_lxor, testBit_eq_intBit, testBit_eq_intBit, testBit_eq_intBit]
  exact intBit_logicalVal _ _ (by intro x y i _; simp) rfl a b (BigReg.sign_eq ha) (BigReg.sign_eq hb) i

end Sys2Proof.Machine
end

