-- ==== Sys2Proof/Laws/State.lean ====
section
/-! SUPPORT. One lemma per field per update of the state, so that no proof unfolds a record update. -/

namespace Sys2Proof.Machine

section
variable (s : State)

@[simp] theorem State.setReg_params (r : Reg) (v : BigReg) : (s.setReg r v).params = s.params := rfl
@[simp] theorem State.setReg_regs (r : Reg) (v : BigReg) : (s.setReg r v).regs = s.regs.set r.toNat v := rfl
@[simp] theorem State.setReg_arg0 (r : Reg) (v : BigReg) : (s.setReg r v).arg0 = s.arg0 := rfl
@[simp] theorem State.setReg_arg1 (r : Reg) (v : BigReg) : (s.setReg r v).arg1 = s.arg1 := rfl
@[simp] theorem State.setReg_result (r : Reg) (v : BigReg) : (s.setReg r v).result = s.result := rfl
@[simp] theorem State.setReg_err (r : Reg) (v : BigReg) : (s.setReg r v).err = s.err := rfl
@[simp] theorem State.setReg_stickyErr (r : Reg) (v : BigReg) : (s.setReg r v).stickyErr = s.stickyErr := rfl
@[simp] theorem State.setReg_cmdLost (r : Reg) (v : BigReg) : (s.setReg r v).cmdLost = s.cmdLost := rfl
@[simp] theorem State.setReg_mulPath (r : Reg) (v : BigReg) : (s.setReg r v).mulPath = s.mulPath := rfl
@[simp] theorem State.setReg_errCmd (r : Reg) (v : BigReg) : (s.setReg r v).errCmd = s.errCmd := rfl
@[simp] theorem State.setReg_pending (r : Reg) (v : BigReg) : (s.setReg r v).pending = s.pending := rfl
@[simp] theorem State.setReg_host (r : Reg) (v : BigReg) : (s.setReg r v).host = s.host := rfl
@[simp] theorem State.setReg_schedule (r : Reg) (v : BigReg) : (s.setReg r v).schedule = s.schedule := rfl
@[simp] theorem State.setReg_readLog (r : Reg) (v : BigReg) : (s.setReg r v).readLog = s.readLog := rfl

@[simp] theorem State.setResult_params (v : Word) : (s.setResult v).params = s.params := rfl
@[simp] theorem State.setResult_regs (v : Word) : (s.setResult v).regs = s.regs := rfl
@[simp] theorem State.setResult_arg0 (v : Word) : (s.setResult v).arg0 = s.arg0 := rfl
@[simp] theorem State.setResult_arg1 (v : Word) : (s.setResult v).arg1 = s.arg1 := rfl
@[simp] theorem State.setResult_result (v : Word) : (s.setResult v).result = v := rfl
@[simp] theorem State.setResult_err (v : Word) : (s.setResult v).err = s.err := rfl
@[simp] theorem State.setResult_stickyErr (v : Word) : (s.setResult v).stickyErr = s.stickyErr := rfl
@[simp] theorem State.setResult_cmdLost (v : Word) : (s.setResult v).cmdLost = s.cmdLost := rfl
@[simp] theorem State.setResult_mulPath (v : Word) : (s.setResult v).mulPath = s.mulPath := rfl
@[simp] theorem State.setResult_errCmd (v : Word) : (s.setResult v).errCmd = s.errCmd := rfl
@[simp] theorem State.setResult_pending (v : Word) : (s.setResult v).pending = s.pending := rfl
@[simp] theorem State.setResult_host (v : Word) : (s.setResult v).host = s.host := rfl
@[simp] theorem State.setResult_schedule (v : Word) : (s.setResult v).schedule = s.schedule := rfl
@[simp] theorem State.setResult_readLog (v : Word) : (s.setResult v).readLog = s.readLog := rfl

@[simp] theorem State.setMulPath_params (p : MulPath) : (s.setMulPath p).params = s.params := rfl
@[simp] theorem State.setMulPath_regs (p : MulPath) : (s.setMulPath p).regs = s.regs := rfl
@[simp] theorem State.setMulPath_arg0 (p : MulPath) : (s.setMulPath p).arg0 = s.arg0 := rfl
@[simp] theorem State.setMulPath_arg1 (p : MulPath) : (s.setMulPath p).arg1 = s.arg1 := rfl
@[simp] theorem State.setMulPath_result (p : MulPath) : (s.setMulPath p).result = s.result := rfl
@[simp] theorem State.setMulPath_err (p : MulPath) : (s.setMulPath p).err = s.err := rfl
@[simp] theorem State.setMulPath_stickyErr (p : MulPath) : (s.setMulPath p).stickyErr = s.stickyErr := rfl
@[simp] theorem State.setMulPath_cmdLost (p : MulPath) : (s.setMulPath p).cmdLost = s.cmdLost := rfl
@[simp] theorem State.setMulPath_mulPath (p : MulPath) : (s.setMulPath p).mulPath = p := rfl
@[simp] theorem State.setMulPath_errCmd (p : MulPath) : (s.setMulPath p).errCmd = s.errCmd := rfl
@[simp] theorem State.setMulPath_pending (p : MulPath) : (s.setMulPath p).pending = s.pending := rfl
@[simp] theorem State.setMulPath_host (p : MulPath) : (s.setMulPath p).host = s.host := rfl
@[simp] theorem State.setMulPath_schedule (p : MulPath) : (s.setMulPath p).schedule = s.schedule := rfl
@[simp] theorem State.setMulPath_readLog (p : MulPath) : (s.setMulPath p).readLog = s.readLog := rfl

@[simp] theorem State.complete_params : (s.complete).params = s.params := rfl
@[simp] theorem State.complete_regs : (s.complete).regs = s.regs := rfl
@[simp] theorem State.complete_arg0 : (s.complete).arg0 = s.arg0 := rfl
@[simp] theorem State.complete_arg1 : (s.complete).arg1 = s.arg1 := rfl
@[simp] theorem State.complete_result : (s.complete).result = s.result := rfl
@[simp] theorem State.complete_err : (s.complete).err = none := rfl
@[simp] theorem State.complete_stickyErr : (s.complete).stickyErr = s.stickyErr := rfl
@[simp] theorem State.complete_cmdLost : (s.complete).cmdLost = s.cmdLost := rfl
@[simp] theorem State.complete_mulPath : (s.complete).mulPath = s.mulPath := rfl
@[simp] theorem State.complete_errCmd : (s.complete).errCmd = s.errCmd := rfl
@[simp] theorem State.complete_pending : (s.complete).pending = none := rfl
@[simp] theorem State.complete_host : (s.complete).host = s.host := rfl
@[simp] theorem State.complete_schedule : (s.complete).schedule = s.schedule := rfl
@[simp] theorem State.complete_readLog : (s.complete).readLog = s.readLog := rfl

@[simp] theorem State.fail_params (e : ErrCode) (w : CmdWord) : (s.fail e w).params = s.params := rfl
@[simp] theorem State.fail_regs (e : ErrCode) (w : CmdWord) : (s.fail e w).regs = s.regs := rfl
@[simp] theorem State.fail_arg0 (e : ErrCode) (w : CmdWord) : (s.fail e w).arg0 = s.arg0 := rfl
@[simp] theorem State.fail_arg1 (e : ErrCode) (w : CmdWord) : (s.fail e w).arg1 = s.arg1 := rfl
@[simp] theorem State.fail_result (e : ErrCode) (w : CmdWord) : (s.fail e w).result = s.result := rfl
@[simp] theorem State.fail_err (e : ErrCode) (w : CmdWord) : (s.fail e w).err = some e := rfl
@[simp] theorem State.fail_stickyErr (e : ErrCode) (w : CmdWord) : (s.fail e w).stickyErr = true := rfl
@[simp] theorem State.fail_cmdLost (e : ErrCode) (w : CmdWord) : (s.fail e w).cmdLost = s.cmdLost := rfl
@[simp] theorem State.fail_mulPath (e : ErrCode) (w : CmdWord) : (s.fail e w).mulPath = s.mulPath := rfl
@[simp] theorem State.fail_errCmd (e : ErrCode) (w : CmdWord) : (s.fail e w).errCmd = w.setWidth 64 := rfl
@[simp] theorem State.fail_pending (e : ErrCode) (w : CmdWord) : (s.fail e w).pending = none := rfl
@[simp] theorem State.fail_host (e : ErrCode) (w : CmdWord) : (s.fail e w).host = s.host := rfl
@[simp] theorem State.fail_schedule (e : ErrCode) (w : CmdWord) : (s.fail e w).schedule = s.schedule := rfl
@[simp] theorem State.fail_readLog (e : ErrCode) (w : CmdWord) : (s.fail e w).readLog = s.readLog := rfl

@[simp] theorem State.dropWrite_params : (s.dropWrite).params = s.params := rfl
@[simp] theorem State.dropWrite_regs : (s.dropWrite).regs = s.regs := rfl
@[simp] theorem State.dropWrite_arg0 : (s.dropWrite).arg0 = s.arg0 := rfl
@[simp] theorem State.dropWrite_arg1 : (s.dropWrite).arg1 = s.arg1 := rfl
@[simp] theorem State.dropWrite_result : (s.dropWrite).result = s.result := rfl
@[simp] theorem State.dropWrite_err : (s.dropWrite).err = s.err := rfl
@[simp] theorem State.dropWrite_stickyErr : (s.dropWrite).stickyErr = s.stickyErr := rfl
@[simp] theorem State.dropWrite_cmdLost : (s.dropWrite).cmdLost = true := rfl
@[simp] theorem State.dropWrite_mulPath : (s.dropWrite).mulPath = s.mulPath := rfl
@[simp] theorem State.dropWrite_errCmd : (s.dropWrite).errCmd = s.errCmd := rfl
@[simp] theorem State.dropWrite_pending : (s.dropWrite).pending = s.pending := rfl
@[simp] theorem State.dropWrite_host : (s.dropWrite).host = s.host := rfl
@[simp] theorem State.dropWrite_schedule : (s.dropWrite).schedule = s.schedule := rfl
@[simp] theorem State.dropWrite_readLog : (s.dropWrite).readLog = s.readLog := rfl

@[simp] theorem State.clearFlags_params (v : Word) : (s.clearFlags v).params = s.params := rfl
@[simp] theorem State.clearFlags_regs (v : Word) : (s.clearFlags v).regs = s.regs := rfl
@[simp] theorem State.clearFlags_arg0 (v : Word) : (s.clearFlags v).arg0 = s.arg0 := rfl
@[simp] theorem State.clearFlags_arg1 (v : Word) : (s.clearFlags v).arg1 = s.arg1 := rfl
@[simp] theorem State.clearFlags_result (v : Word) : (s.clearFlags v).result = s.result := rfl
@[simp] theorem State.clearFlags_err (v : Word) : (s.clearFlags v).err = s.err := rfl
@[simp] theorem State.clearFlags_stickyErr (v : Word) : (s.clearFlags v).stickyErr = (s.stickyErr && !v.getLsbD 8) := rfl
@[simp] theorem State.clearFlags_cmdLost (v : Word) : (s.clearFlags v).cmdLost = (s.cmdLost && !v.getLsbD 9) := rfl
@[simp] theorem State.clearFlags_mulPath (v : Word) : (s.clearFlags v).mulPath = s.mulPath := rfl
@[simp] theorem State.clearFlags_errCmd (v : Word) : (s.clearFlags v).errCmd = s.errCmd := rfl
@[simp] theorem State.clearFlags_pending (v : Word) : (s.clearFlags v).pending = s.pending := rfl
@[simp] theorem State.clearFlags_host (v : Word) : (s.clearFlags v).host = s.host := rfl
@[simp] theorem State.clearFlags_schedule (v : Word) : (s.clearFlags v).schedule = s.schedule := rfl
@[simp] theorem State.clearFlags_readLog (v : Word) : (s.clearFlags v).readLog = s.readLog := rfl

@[simp] theorem State.accept_params (v : Word) : (s.accept v).params = s.params := rfl
@[simp] theorem State.accept_regs (v : Word) : (s.accept v).regs = s.regs := rfl
@[simp] theorem State.accept_arg0 (v : Word) : (s.accept v).arg0 = s.arg0 := rfl
@[simp] theorem State.accept_arg1 (v : Word) : (s.accept v).arg1 = s.arg1 := rfl
@[simp] theorem State.accept_result (v : Word) : (s.accept v).result = s.result := rfl
@[simp] theorem State.accept_err (v : Word) : (s.accept v).err = s.err := rfl
@[simp] theorem State.accept_stickyErr (v : Word) : (s.accept v).stickyErr = s.stickyErr := rfl
@[simp] theorem State.accept_cmdLost (v : Word) : (s.accept v).cmdLost = s.cmdLost := rfl
@[simp] theorem State.accept_mulPath (v : Word) : (s.accept v).mulPath = s.mulPath := rfl
@[simp] theorem State.accept_errCmd (v : Word) : (s.accept v).errCmd = s.errCmd := rfl
@[simp] theorem State.accept_pending (v : Word) : (s.accept v).pending = some (commandOfWrite v) := rfl
@[simp] theorem State.accept_host (v : Word) : (s.accept v).host = s.host := rfl
@[simp] theorem State.accept_schedule (v : Word) : (s.accept v).schedule = s.schedule := rfl
@[simp] theorem State.accept_readLog (v : Word) : (s.accept v).readLog = s.readLog := rfl

@[simp] theorem State.respond_params (v : Word) : (s.respond v).params = s.params := rfl
@[simp] theorem State.respond_regs (v : Word) : (s.respond v).regs = s.regs := rfl
@[simp] theorem State.respond_arg0 (v : Word) : (s.respond v).arg0 = s.arg0 := rfl
@[simp] theorem State.respond_arg1 (v : Word) : (s.respond v).arg1 = s.arg1 := rfl
@[simp] theorem State.respond_result (v : Word) : (s.respond v).result = s.result := rfl
@[simp] theorem State.respond_err (v : Word) : (s.respond v).err = s.err := rfl
@[simp] theorem State.respond_stickyErr (v : Word) : (s.respond v).stickyErr = s.stickyErr := rfl
@[simp] theorem State.respond_cmdLost (v : Word) : (s.respond v).cmdLost = s.cmdLost := rfl
@[simp] theorem State.respond_mulPath (v : Word) : (s.respond v).mulPath = s.mulPath := rfl
@[simp] theorem State.respond_errCmd (v : Word) : (s.respond v).errCmd = s.errCmd := rfl
@[simp] theorem State.respond_pending (v : Word) : (s.respond v).pending = s.pending := rfl
@[simp] theorem State.respond_host (v : Word) : (s.respond v).host = s.host := rfl
@[simp] theorem State.respond_schedule (v : Word) : (s.respond v).schedule = s.schedule := rfl
@[simp] theorem State.respond_readLog (v : Word) : (s.respond v).readLog = v :: s.readLog := rfl

@[simp] theorem State.goto_params (n : Nat) : (s.goto n).params = s.params := rfl
@[simp] theorem State.goto_regs (n : Nat) : (s.goto n).regs = s.regs := rfl
@[simp] theorem State.goto_arg0 (n : Nat) : (s.goto n).arg0 = s.arg0 := rfl
@[simp] theorem State.goto_arg1 (n : Nat) : (s.goto n).arg1 = s.arg1 := rfl
@[simp] theorem State.goto_result (n : Nat) : (s.goto n).result = s.result := rfl
@[simp] theorem State.goto_err (n : Nat) : (s.goto n).err = s.err := rfl
@[simp] theorem State.goto_stickyErr (n : Nat) : (s.goto n).stickyErr = s.stickyErr := rfl
@[simp] theorem State.goto_cmdLost (n : Nat) : (s.goto n).cmdLost = s.cmdLost := rfl
@[simp] theorem State.goto_mulPath (n : Nat) : (s.goto n).mulPath = s.mulPath := rfl
@[simp] theorem State.goto_errCmd (n : Nat) : (s.goto n).errCmd = s.errCmd := rfl
@[simp] theorem State.goto_pending (n : Nat) : (s.goto n).pending = s.pending := rfl
@[simp] theorem State.goto_host (n : Nat) : (s.goto n).host = { s.host with pos := n } := rfl
@[simp] theorem State.goto_schedule (n : Nat) : (s.goto n).schedule = s.schedule := rfl
@[simp] theorem State.goto_readLog (n : Nat) : (s.goto n).readLog = s.readLog := rfl

@[simp] theorem State.popEvent_params : (s.popEvent).params = s.params := rfl
@[simp] theorem State.popEvent_regs : (s.popEvent).regs = s.regs := rfl
@[simp] theorem State.popEvent_arg0 : (s.popEvent).arg0 = s.arg0 := rfl
@[simp] theorem State.popEvent_arg1 : (s.popEvent).arg1 = s.arg1 := rfl
@[simp] theorem State.popEvent_result : (s.popEvent).result = s.result := rfl
@[simp] theorem State.popEvent_err : (s.popEvent).err = s.err := rfl
@[simp] theorem State.popEvent_stickyErr : (s.popEvent).stickyErr = s.stickyErr := rfl
@[simp] theorem State.popEvent_cmdLost : (s.popEvent).cmdLost = s.cmdLost := rfl
@[simp] theorem State.popEvent_mulPath : (s.popEvent).mulPath = s.mulPath := rfl
@[simp] theorem State.popEvent_errCmd : (s.popEvent).errCmd = s.errCmd := rfl
@[simp] theorem State.popEvent_pending : (s.popEvent).pending = s.pending := rfl
@[simp] theorem State.popEvent_host : (s.popEvent).host = s.host := rfl
@[simp] theorem State.popEvent_schedule : (s.popEvent).schedule = s.schedule.tail := rfl
@[simp] theorem State.popEvent_readLog : (s.popEvent).readLog = s.readLog := rfl

end

end Sys2Proof.Machine
end

