-- ==== Sys2Proof/Laws/Ops.lean ====
section
/-! SUPPORT. The shared operations: reading back a written register, what the write-back and a command's completion can
do, and that they keep every register sound (spec/10_state.md R22 to R26; spec/60_exceptions.md R221 to R224). -/

namespace Sys2Proof.Machine

/-- A written register reads back (R25). -/
theorem State.reg_setReg_self (s : State) (r : Reg) (v : BigReg) (h : r.toNat < s.regs.length) :
    (s.setReg r v).reg r = v := by
  simp [State.reg, State.setReg, List.getD, h]

/-- Writing a register changes no other one (R25). -/
theorem State.reg_setReg_ne (s : State) (r q : Reg) (v : BigReg) (h : q ≠ r) : (s.setReg r v).reg q = s.reg q := by
  have : r.toNat ≠ q.toNat := fun h' => h (BitVec.eq_of_toNat_eq h'.symm)
  simp [State.reg, State.setReg, List.getD, List.getElem?_set_ne this]

/-- The limbs of every other register read as before (R25, R57). -/
theorem State.limbRead_setReg_ne (s : State) (r q : Reg) (v : BigReg) (j : Nat) (h : q ≠ r) :
    (s.setReg r v).limbRead q j = s.limbRead q j := by
  rw [State.limbRead, State.reg_setReg_ne s r q v h, State.limbRead]

/-- Two states with the same register file read the same registers. -/
theorem State.reg_congr {s t : State} (h : t.regs = s.regs) (r : Reg) : t.reg r = s.reg r := by
  rw [State.reg, h, State.reg]

/-- Every register of a sound state is sound. -/
theorem State.reg_wf {s : State} (h : s.wf) (r : Reg) : (s.reg r).wf s.params.maxLimbs := by
  rw [State.reg, List.getD]
  rcases hr : s.regs[r.toNat]? with _ | v
  · exact zero_wf _
  · exact h.2.2.1 v (List.mem_of_getElem? hr)

/-- Writing a sound register keeps the state sound. -/
theorem State.setReg_wf {s : State} (h : s.wf) (r : Reg) {v : BigReg} (hv : v.wf s.params.maxLimbs) :
    (s.setReg r v).wf := by
  refine ⟨h.1, by simpa using h.2.1, fun q hq => ?_, h.2.2.2⟩
  rcases List.mem_or_eq_of_mem_set hq with hq | rfl
  · exact h.2.2.1 q hq
  · exact hv

/-- The canonical record of a value that fits is sound (R26). -/
theorem canon_wf {maxLimbs : Nat} {x : Int} {c : Nat} (hx : limbLen x.natAbs ≤ maxLimbs) (hc : c ≤ maxLimbs) :
    (canon x (max c (limbLen x.natAbs))).wf maxLimbs := by
  refine ⟨canon_normalized _ _, ?_, ?_⟩
  · simp [canon, BigReg.len]
  · simp [canon, hx, hc]

/-- Everything the write-back can do (R26). -/
theorem State.writeBack_cases (s : State) (d : Reg) (x : Int) :
    (limbLen x.natAbs ≤ s.params.maxLimbs ∧
      s.writeBack d x = .ok (s.setReg d (canon x (max (s.reg d).cap (limbLen x.natAbs))))) ∨
    (s.params.maxLimbs < limbLen x.natAbs ∧ s.writeBack d x = .error .capacityExceeded) := by
  unfold State.writeBack
  split
  · next h => exact .inr ⟨h, rfl⟩
  · next h => exact .inl ⟨by omega, rfl⟩

theorem State.writeBack_fits {s : State} {d : Reg} {x : Int} (h : limbLen x.natAbs ≤ s.params.maxLimbs) :
    s.writeBack d x = .ok (s.setReg d (canon x (max (s.reg d).cap (limbLen x.natAbs)))) := by
  rw [State.writeBack, if_neg (by omega)]

theorem State.writeBack_tooLong {s : State} {d : Reg} {x : Int} (h : s.params.maxLimbs < limbLen x.natAbs) :
    s.writeBack d x = .error .capacityExceeded := by
  rw [State.writeBack, if_pos h]

/-- The write-back keeps the state sound (R22, R23, R26). -/
theorem State.writeBack_wf {s t : State} (h : s.wf) {d : Reg} {x : Int} (ht : s.writeBack d x = .ok t) : t.wf := by
  rcases s.writeBack_cases d x with ⟨hx, heq⟩ | ⟨_, heq⟩ <;> rw [heq] at ht
  · obtain rfl := Except.ok.inj ht
    exact State.setReg_wf h d (canon_wf hx (State.reg_wf h d).2.2)
  · cases ht

theorem State.complete_wf {s : State} (h : s.wf) : s.complete.wf := h

theorem State.fail_wf {s : State} (h : s.wf) (e : ErrCode) (w : CmdWord) : (s.fail e w).wf := by
  refine ⟨h.1, h.2.1, h.2.2.1, ?_⟩
  have := w.isLt
  simp only [State.fail_errCmd, BitVec.toNat_setWidth]
  omega

/-- Everything a command can do (R84, R221 to R224): its rule's state completes, or it fails with the rule's error, or it
fails with BadRegister. -/
theorem State.command_cases (s : State) (i : Instr) (rule : Rule) :
    (registersInRange s.params.nreg i = true ∧ ∃ t, rule s = .ok t ∧ s.command i rule = .next t.complete) ∨
    (registersInRange s.params.nreg i = true ∧
      ∃ e, rule s = .error e ∧ s.command i rule = .next (s.fail e (encode i))) ∨
    (registersInRange s.params.nreg i = false ∧ s.command i rule = .next (s.fail .badRegister (encode i))) := by
  unfold State.command
  cases hr : registersInRange s.params.nreg i
  · exact .inr (.inr ⟨rfl, by simp⟩)
  · cases hrule : rule s with
    | ok t => exact .inl ⟨rfl, t, rfl, by simp⟩
    | error e => exact .inr (.inl ⟨rfl, e, rfl, by simp⟩)

theorem State.command_ok {s t : State} {i : Instr} {rule : Rule} (hr : registersInRange s.params.nreg i = true)
    (h : rule s = .ok t) : s.command i rule = .next t.complete := by
  rw [State.command, if_pos hr, h]

theorem State.command_error {s : State} {i : Instr} {rule : Rule} {e : ErrCode}
    (hr : registersInRange s.params.nreg i = true) (h : rule s = .error e) :
    s.command i rule = .next (s.fail e (encode i)) := by
  rw [State.command, if_pos hr, h]

theorem State.command_badRegister {s : State} {i : Instr} {rule : Rule} (hr : registersInRange s.params.nreg i = false) :
    s.command i rule = .next (s.fail .badRegister (encode i)) := by
  rw [State.command, if_neg (by simp [hr])]

/-- A command whose rule writes back a value that fits ends in the state `wrote` describes. -/
theorem State.command_wrote {s : State} {i : Instr} {rule : Rule} {d : Reg} {x : Int}
    (hr : registersInRange s.params.nreg i = true) (h : rule s = s.writeBack d x)
    (hx : limbLen x.natAbs ≤ s.params.maxLimbs) : s.command i rule = .next (s.wrote d x) := by
  rw [State.command_ok hr (h.trans (State.writeBack_fits hx))]; rfl

/-- A command whose rule writes back a value that does not fit fails with CapacityExceeded. -/
theorem State.command_tooLong {s : State} {i : Instr} {rule : Rule} {d : Reg} {x : Int}
    (hr : registersInRange s.params.nreg i = true) (h : rule s = s.writeBack d x)
    (hx : s.params.maxLimbs < limbLen x.natAbs) : s.command i rule = .next (s.failed .capacityExceeded i) := by
  rw [State.command_error hr (h.trans (State.writeBack_tooLong hx))]; rfl

/-- A command whose rule only answers a value ends in the state `answered` describes. -/
theorem State.command_answers {s : State} {i : Instr} {f : State → Word}
    (hr : registersInRange s.params.nreg i = true) :
    s.command i (fun s => .ok (s.setResult (f s))) = .next (s.answered (f s)) := by
  rw [State.command, if_pos hr]; rfl

/-- A command whose rule always succeeds ends in its rule's state, completed. -/
theorem State.command_succeeds {s : State} {i : Instr} {f : State → State}
    (hr : registersInRange s.params.nreg i = true) :
    s.command i (fun s => .ok (f s)) = .next (f s).complete := by
  rw [State.command, if_pos hr]

end Sys2Proof.Machine
end

