-- ==== Sys2Proof/Laws/PerInstr.lean ====
section
/-! SUPPORT. Statements for all instructions, one lemma per constructor. -/

namespace Sys2Proof.Laws.Range

/-- The decoder's register range check (R84, R221) is the well-formedness of the command's term. -/
def Statement (i : Instr) : Prop := ∀ nreg, registersInRange nreg i = i.wellFormed nreg

theorem nop : Statement .nop := by
  intro nreg; simp [registersInRange, usedRegs, Instr.wellFormed]
theorem ldi (rd : Reg) : Statement (.ldi rd) := by
  intro nreg; simp [registersInRange, usedRegs, Instr.wellFormed, Reg.inFile]
theorem copy (rd rs1 : Reg) : Statement (.copy rd rs1) := by
  intro nreg; simp [registersInRange, usedRegs, Instr.wellFormed, Reg.inFile]
theorem move (rd rs1 : Reg) : Statement (.move rd rs1) := by
  intro nreg; simp [registersInRange, usedRegs, Instr.wellFormed, Reg.inFile]
theorem resize (rd : Reg) : Statement (.resize rd) := by
  intro nreg; simp [registersInRange, usedRegs, Instr.wellFormed, Reg.inFile]
theorem rdlimb (rs1 : Reg) : Statement (.rdlimb rs1) := by
  intro nreg; simp [registersInRange, usedRegs, Instr.wellFormed, Reg.inFile]
theorem wrlimb (rd : Reg) : Statement (.wrlimb rd) := by
  intro nreg; simp [registersInRange, usedRegs, Instr.wellFormed, Reg.inFile]
theorem len (rs1 : Reg) : Statement (.len rs1) := by
  intro nreg; simp [registersInRange, usedRegs, Instr.wellFormed, Reg.inFile]
theorem cap (rs1 : Reg) : Statement (.cap rs1) := by
  intro nreg; simp [registersInRange, usedRegs, Instr.wellFormed, Reg.inFile]
theorem bitlen (rs1 : Reg) : Statement (.bitlen rs1) := by
  intro nreg; simp [registersInRange, usedRegs, Instr.wellFormed, Reg.inFile]
theorem addm (rd rs1 rs2 : Reg) : Statement (.addm rd rs1 rs2) := by
  intro nreg; simp [registersInRange, usedRegs, Instr.wellFormed, Reg.inFile, Bool.and_assoc]
theorem subm (rd rs1 rs2 : Reg) : Statement (.subm rd rs1 rs2) := by
  intro nreg; simp [registersInRange, usedRegs, Instr.wellFormed, Reg.inFile, Bool.and_assoc]
theorem cmpm (rs1 rs2 : Reg) : Statement (.cmpm rs1 rs2) := by
  intro nreg; simp [registersInRange, usedRegs, Instr.wellFormed, Reg.inFile]
theorem mul (rd rs1 rs2 : Reg) : Statement (.mul rd rs1 rs2) := by
  intro nreg; simp [registersInRange, usedRegs, Instr.wellFormed, Reg.inFile, Bool.and_assoc]
theorem muls (rd rs1 rs2 : Reg) : Statement (.muls rd rs1 rs2) := by
  intro nreg; simp [registersInRange, usedRegs, Instr.wellFormed, Reg.inFile, Bool.and_assoc]
theorem mulk (rd rs1 rs2 : Reg) : Statement (.mulk rd rs1 rs2) := by
  intro nreg; simp [registersInRange, usedRegs, Instr.wellFormed, Reg.inFile, Bool.and_assoc]
theorem mulf (rd rs1 rs2 : Reg) : Statement (.mulf rd rs1 rs2) := by
  intro nreg; simp [registersInRange, usedRegs, Instr.wellFormed, Reg.inFile, Bool.and_assoc]
theorem div (rd rs1 rs2 : Reg) : Statement (.div rd rs1 rs2) := by
  intro nreg; simp [registersInRange, usedRegs, Instr.wellFormed, Reg.inFile, Bool.and_assoc]
theorem mod (rd rs1 rs2 : Reg) : Statement (.mod rd rs1 rs2) := by
  intro nreg; simp [registersInRange, usedRegs, Instr.wellFormed, Reg.inFile, Bool.and_assoc]
theorem and (rd rs1 rs2 : Reg) : Statement (.and rd rs1 rs2) := by
  intro nreg; simp [registersInRange, usedRegs, Instr.wellFormed, Reg.inFile, Bool.and_assoc]
theorem or (rd rs1 rs2 : Reg) : Statement (.or rd rs1 rs2) := by
  intro nreg; simp [registersInRange, usedRegs, Instr.wellFormed, Reg.inFile, Bool.and_assoc]
theorem xor (rd rs1 rs2 : Reg) : Statement (.xor rd rs1 rs2) := by
  intro nreg; simp [registersInRange, usedRegs, Instr.wellFormed, Reg.inFile, Bool.and_assoc]
theorem shl (rd rs1 : Reg) : Statement (.shl rd rs1) := by
  intro nreg; simp [registersInRange, usedRegs, Instr.wellFormed, Reg.inFile]
theorem shr (rd rs1 : Reg) : Statement (.shr rd rs1) := by
  intro nreg; simp [registersInRange, usedRegs, Instr.wellFormed, Reg.inFile]
theorem add (rd rs1 rs2 : Reg) : Statement (.add rd rs1 rs2) := by
  intro nreg; simp [registersInRange, usedRegs, Instr.wellFormed, Reg.inFile, Bool.and_assoc]
theorem sub (rd rs1 rs2 : Reg) : Statement (.sub rd rs1 rs2) := by
  intro nreg; simp [registersInRange, usedRegs, Instr.wellFormed, Reg.inFile, Bool.and_assoc]
theorem neg (rd rs1 : Reg) : Statement (.neg rd rs1) := by
  intro nreg; simp [registersInRange, usedRegs, Instr.wellFormed, Reg.inFile]
theorem abs (rd rs1 : Reg) : Statement (.abs rd rs1) := by
  intro nreg; simp [registersInRange, usedRegs, Instr.wellFormed, Reg.inFile]
theorem cmp (rs1 rs2 : Reg) : Statement (.cmp rs1 rs2) := by
  intro nreg; simp [registersInRange, usedRegs, Instr.wellFormed, Reg.inFile]
theorem iszero (rs1 : Reg) : Statement (.iszero rs1) := by
  intro nreg; simp [registersInRange, usedRegs, Instr.wellFormed, Reg.inFile]
theorem isneg (rs1 : Reg) : Statement (.isneg rs1) := by
  intro nreg; simp [registersInRange, usedRegs, Instr.wellFormed, Reg.inFile]

end Sys2Proof.Laws.Range
end

