-- ==== Sys2Proof/Laws/Commands.lean ====
section
/-! SUPPORT. What the meanings of the commands rest on: every command is one rule under the shared completion, a sound
register in terms of its integer, the state after a write read back, and the laws of the rules that have a body of their own
(spec/10_state.md R20 to R26; spec/40_limb_store.md R107; spec/42_multiply.md R151; spec/44_bitwise.md R182, R185, R186). -/

namespace Sys2Proof.Machine

/-- The decoder's range check is the well-formedness of the command (R84, R221). -/
theorem registersInRange_eq_wellFormed (nreg : Nat) (i : Instr) : registersInRange nreg i = i.wellFormed nreg := by
  cases i <;> simp [registersInRange, usedRegs, Instr.wellFormed, Reg.inFile, Bool.and_assoc]

/-- Every command is one rule under the shared range check and completion (R84, R223, R224). -/
theorem exec_is_command (i : Instr) (s : State) : ∃ rule : Rule, exec i s = s.command i rule := by
  cases i <;>
    dsimp only [exec, execNop, execLdi, execCopy, execMove, execResize, execRdlimb, execWrlimb, execLen, execCap,
      execBitlen, execAddm, execSubm, execCmpm, execMul, execMuls, execMulk, execMulf, execDiv, execMod, execAnd, execOr,
      execXor, execShl, execShr, execAdd, execSub, execNeg, execAbs, execCmp, execIszero, execIsneg] <;>
    exact ⟨_, rfl⟩

/-! ### A sound register in terms of its integer -/

theorem State.reg_normalized {s : State} (h : s.wf) (r : Reg) : (s.reg r).normalized := (State.reg_wf h r).1

/-- The sign bit is set exactly on a negative value (R21, R22). -/
theorem State.sign_reg {s : State} (h : s.wf) (r : Reg) : (s.reg r).sign = decide (s.val r < 0) :=
  BigReg.sign_eq (State.reg_normalized h r)

/-- The length of a register is the number of limbs of its value (R13). -/
theorem State.len_reg {s : State} (h : s.wf) (r : Reg) : (s.reg r).limbs.length = limbLen (s.val r).natAbs :=
  BigReg.len_eq_limbLen (State.reg_normalized h r)

/-- The magnitude of a register is the absolute value of its integer (R13). -/
theorem State.mag_reg (s : State) (r : Reg) : mag (s.reg r).limbs = (s.val r).natAbs := BigReg.mag_eq_natAbs _

/-- The value of a sound register fits `MAXLIMBS` (R21). -/
theorem State.val_fits {s : State} (h : s.wf) (r : Reg) : limbLen (s.val r).natAbs ≤ s.params.maxLimbs := by
  have hr := (State.reg_wf h r).2
  rw [← State.len_reg h r]
  exact le_trans hr.1 hr.2

/-- The range of `MAXLIMBS` (R6). -/
theorem Params.maxLimbs_range {p : Params} (h : p.legal = true) : 1 ≤ p.maxLimbs ∧ p.maxLimbs ≤ 2 ^ 57 := by
  simp [Params.legal] at h; omega

/-! ### The state after a write -/

/-- The destination's record after a write (R26). -/
theorem State.reg_wrote_self {s : State} {d : Reg} (hd : d.toNat < s.regs.length) (x : Int) :
    (s.wrote d x).reg d = canon x (max (s.reg d).cap (limbLen x.natAbs)) :=
  State.reg_setReg_self s d _ hd

/-- Every other register reads as before (R25). -/
theorem State.reg_wrote_ne (s : State) {d r : Reg} (h : r ≠ d) (x : Int) : (s.wrote d x).reg r = s.reg r :=
  State.reg_setReg_ne s d r _ h

theorem State.val_wrote_self {s : State} {d : Reg} (hd : d.toNat < s.regs.length) (x : Int) : (s.wrote d x).val d = x := by
  rw [State.val, State.reg_wrote_self hd, val_canon]

theorem State.val_wrote_ne (s : State) {d r : Reg} (h : r ≠ d) (x : Int) : (s.wrote d x).val r = s.val r := by
  rw [State.val, State.reg_wrote_ne s h, State.val]

/-- Writing a value that fits keeps the state sound (R22, R23, R26). -/
theorem State.wrote_wf {s : State} (h : s.wf) (d : Reg) {x : Int} (hx : limbLen x.natAbs ≤ s.params.maxLimbs) :
    (s.wrote d x).wf :=
  State.complete_wf (State.setReg_wf h d (canon_wf hx (State.reg_wf h d).2.2))

/-! ### The rules with a body of their own -/

/-- A limb sequence after one limb is replaced, limb by limb (R107). -/
theorem limbAt_replaceLimb (a : List Word) (j : Nat) (v : Word) (i : Nat) :
    limbAt (replaceLimb a j v) i = if i = j then v else limbAt a i := by
  unfold replaceLimb
  rw [← limbAt_pad (j + 1) a i]
  simp only [limbAt, List.length_set, length_pad]
  by_cases h : i = j
  · subst h; simp [List.getD]
  · simp [h, List.getD, List.getElem?_set_ne (Ne.symm h)]

/-- The limbs of a canonical record are those of the magnitude it was made from (R13, R101). -/
theorem limbAt_canon_signedVal (sign : Bool) (a : List Word) (c j : Nat) :
    limbAt (canon (signedVal sign (mag a)) c).limbs j = limbAt a j := by
  apply BitVec.eq_of_toNat_eq
  rw [limbAt_toNat, limbAt_toNat]
  simp [canon, natAbs_signedVal]

/-- WRLIMB's value: the magnitude with one limb exchanged, under the sign of a nonzero result (R107). -/
theorem signedVal_replaceLimb {r : BigReg} (hn : r.normalized) (j : Nat) (v : Word) (m : Int)
    (hm : m = (r.val.natAbs : Int) - ((limbAt r.limbs j).toNat : Int) * 2 ^ (64 * j) + (v.toNat : Int) * 2 ^ (64 * j)) :
    signedVal r.sign (mag (replaceLimb r.limbs j v)) = if r.val < 0 ∧ m ≠ 0 then -m else m := by
  have h : ((mag (replaceLimb r.limbs j v) + (limbAt r.limbs j).toNat * 2 ^ (64 * j) : Nat) : Int) =
      ((mag r.limbs + v.toNat * 2 ^ (64 * j) : Nat) : Int) := by rw [mag_replaceLimb]
  have h' : (mag (replaceLimb r.limbs j v) : Int) = m := by
    rw [hm, ← BigReg.mag_eq_natAbs]
    push_cast at h
    linarith
  rw [signedVal, BigReg.sign_eq hn, h']
  by_cases h0 : r.val < 0
  · by_cases hm0 : m = 0 <;> simp [h0, hm0]
  · simp [h0]

/-- The path that a multiply takes, by the values (R141, R149). -/
theorem pathTaken_eq {s : State} (h : s.wf) (sel : Nat → MulPath) (rs1 rs2 : Reg) :
    pathTaken sel (s.reg rs1) (s.reg rs2) =
      if s.val rs1 = 0 ∨ s.val rs2 = 0 then .zeroOperand
      else sel (max (limbLen (s.val rs1).natAbs) (limbLen (s.val rs2).natAbs)) := by
  unfold pathTaken
  simp only [BigReg.len, State.len_reg h, limbLen_eq_zero, Int.natAbs_eq_zero]

/-- The common multiply body: the exact product written back, and on success the path reported (R140, R149, R151). -/
theorem multiplyRule_eq {s : State} (h : s.wf) (sel : Params → Nat → MulPath) (hsel : ∀ p n, sel p n ≠ .zeroOperand)
    (rd rs1 rs2 : Reg) :
    multiplyRule sel rd rs1 rs2 s =
      match s.writeBack rd (s.val rs1 * s.val rs2) with
      | .ok t => .ok (t.setMulPath (pathTaken (sel s.params) (s.reg rs1) (s.reg rs2)))
      | .error e => .error e := by
  have hm : productMag s.params.schoolbookMax (pathTaken (sel s.params) (s.reg rs1) (s.reg rs2)) (s.reg rs1).limbs
      (s.reg rs2).limbs = mag (s.reg rs1).limbs * mag (s.reg rs2).limbs := by
    apply productMag_eq
    rw [pathTaken_eq h]
    split
    · next h0 =>
      intro _
      rw [State.mag_reg, State.mag_reg]
      rcases h0 with h0 | h0 <;> simp [h0]
    · intro h0; exact absurd h0 (hsel _ _)
  unfold multiplyRule
  dsimp only
  rw [hm, signedVal_xor_mul]
  rfl

/-- The bit length of a nonzero magnitude shifted left (R185). -/
theorem bitlen_mul_pow {x : Nat} (hx : x ≠ 0) (k : Nat) : bitlen (x * 2 ^ k) = bitlen x + k := by
  have h0 : x * 2 ^ k ≠ 0 := by positivity
  have hlog : Nat.log 2 (x * 2 ^ k) = Nat.log 2 x + k := by
    clear h0
    induction k with
    | zero => simp
    | succ k ih => rw [pow_succ, ← mul_assoc, Nat.log_mul_base (by norm_num) (by positivity), ih]; rfl
  rw [bitlen, bitlen, if_neg hx, if_neg h0, Nat.log2_eq_log_two, Nat.log2_eq_log_two, hlog]
  omega

/-- SHL's value (R185). -/
theorem signedVal_mul_pow (r : BigReg) (k : Nat) : signedVal r.sign (mag r.limbs * 2 ^ k) = r.val * 2 ^ k := by
  rw [BigReg.val]; unfold signedVal; split <;> push_cast <;> ring

/-- SHR's value (R186). -/
theorem signedVal_div (r : BigReg) (m : Nat) : signedVal r.sign (mag r.limbs / m) = r.val.tdiv m := by
  rw [BigReg.val]; unfold signedVal; split <;> simp [Int.neg_tdiv]

/-- The OR of two integers is no longer than the longer of them (R182). -/
theorem natAbs_lor_lt (x y : Int) (k : Nat) (hx : x.natAbs < 2 ^ k) (hy : y.natAbs < 2 ^ k) :
    (Int.lor x y).natAbs < 2 ^ k := by
  have hldiff : ∀ m n : Nat, Nat.ldiff m n ≤ m := by
    intro m n
    apply Nat.le_of_testBit
    intro i
    simp [Nat.testBit_ldiff]
    tauto
  cases x with
  | ofNat m =>
    cases y with
    | ofNat n => exact Nat.or_lt_two_pow hx hy
    | negSucc n =>
      have := hldiff n m
      rw [show Int.lor (Int.ofNat m) (Int.negSucc n) = Int.negSucc (Nat.ldiff n m) from rfl, Int.natAbs_negSucc]
      rw [Int.natAbs_negSucc] at hy
      omega
  | negSucc m =>
    rw [Int.natAbs_negSucc] at hx
    cases y with
    | ofNat n =>
      have := hldiff m n
      rw [show Int.lor (Int.negSucc m) (Int.ofNat n) = Int.negSucc (Nat.ldiff m n) from rfl, Int.natAbs_negSucc]
      omega
    | negSucc n =>
      have := Nat.and_le_left (n := m) (m := n)
      rw [show Int.lor (Int.negSucc m) (Int.negSucc n) = Int.negSucc (m &&& n) from rfl, Int.natAbs_negSucc]
      omega

end Sys2Proof.Machine
end

