-- ==== Sys2Proof/Laws/Encoding.lean ====
section
/-! SUPPORT. Command words and their fields (spec/30_encoding.md R80): packing and unpacking are inverse. -/

namespace Sys2Proof

@[simp] theorem opField_packWord (op : BitVec 8) (rd rs1 rs2 : Reg) : opField (packWord op rd rs1 rs2) = op := by
  ext i hi
  simp [opField, packWord]
  interval_cases i <;> simp [BitVec.getLsbD_eq_getElem]

@[simp] theorem rdField_packWord (op : BitVec 8) (rd rs1 rs2 : Reg) : rdField (packWord op rd rs1 rs2) = rd := by
  ext i hi
  simp [rdField, packWord]
  interval_cases i <;> simp [BitVec.getLsbD_eq_getElem]

@[simp] theorem rs1Field_packWord (op : BitVec 8) (rd rs1 rs2 : Reg) : rs1Field (packWord op rd rs1 rs2) = rs1 := by
  ext i hi
  simp [rs1Field, packWord]
  interval_cases i <;> simp [BitVec.getLsbD_eq_getElem]

@[simp] theorem rs2Field_packWord (op : BitVec 8) (rd rs1 rs2 : Reg) : rs2Field (packWord op rd rs1 rs2) = rs2 := by
  ext i hi
  simp [rs2Field, packWord]
  interval_cases i <;> simp [BitVec.getLsbD_eq_getElem]

/-- A word is its four fields. -/
theorem packWord_fields (w : CmdWord) : packWord (opField w) (rdField w) (rs1Field w) (rs2Field w) = w := by
  ext i hi
  simp [opField, rdField, rs1Field, rs2Field, packWord]
  interval_cases i <;> simp [BitVec.getLsbD_eq_getElem]

/-! A packed word under its format's mask is its opcode (R81, R84: `match(op) = op`). -/

theorem packWord_and_N (op : BitVec 8) : packWord op 0 0 0 &&& 0xFFFFFFFF#32 = op.setWidth 32 := by
  ext i hi
  simp [packWord]
  interval_cases i <;> simp

theorem packWord_and_D (op : BitVec 8) (rd : Reg) : packWord op rd 0 0 &&& 0xFFFF00FF#32 = op.setWidth 32 := by
  ext i hi
  simp [packWord]
  interval_cases i <;> simp

theorem packWord_and_DS (op : BitVec 8) (rd rs1 : Reg) : packWord op rd rs1 0 &&& 0xFF0000FF#32 = op.setWidth 32 := by
  ext i hi
  simp [packWord]
  interval_cases i <;> simp

theorem packWord_and_DST (op : BitVec 8) (rd rs1 rs2 : Reg) : packWord op rd rs1 rs2 &&& 0x000000FF#32 = op.setWidth 32 := by
  ext i hi
  simp [packWord]
  interval_cases i <;> simp

theorem packWord_and_S (op : BitVec 8) (rs1 : Reg) : packWord op 0 rs1 0 &&& 0xFF00FFFF#32 = op.setWidth 32 := by
  ext i hi
  simp [packWord]
  interval_cases i <;> simp

theorem packWord_and_SS (op : BitVec 8) (rs1 rs2 : Reg) : packWord op 0 rs1 rs2 &&& 0x0000FFFF#32 = op.setWidth 32 := by
  ext i hi
  simp [packWord]
  interval_cases i <;> simp

/-! A word whose must-be-zero bits are zero is its used fields, packed (R81, R84). -/

theorem field_eq_zero {w : CmdWord} {start : Nat} (h : ∀ i < 8, w.getLsbD (start + i) = false) :
    w.extractLsb' start 8 = 0#8 := by
  ext i hi
  simpa [hi] using h i hi

theorem packWord_of_and_N {w : CmdWord} (h : w &&& 0xFFFFFFFF#32 = (opField w).setWidth 32) :
    packWord (opField w) 0 0 0 = w := by
  have hrd : rdField w = 0#8 := field_eq_zero (start := 8) fun i hi => by
    have := congrArg (fun v : CmdWord => v.getLsbD (8 + i)) h
    interval_cases i <;> simpa [opField] using this
  have hrs1 : rs1Field w = 0#8 := field_eq_zero (start := 16) fun i hi => by
    have := congrArg (fun v : CmdWord => v.getLsbD (16 + i)) h
    interval_cases i <;> simpa [opField] using this
  have hrs2 : rs2Field w = 0#8 := field_eq_zero (start := 24) fun i hi => by
    have := congrArg (fun v : CmdWord => v.getLsbD (24 + i)) h
    interval_cases i <;> simpa [opField] using this
  conv_rhs => rw [← packWord_fields w, hrd, hrs1, hrs2]
  rfl

theorem packWord_of_and_D {w : CmdWord} (h : w &&& 0xFFFF00FF#32 = (opField w).setWidth 32) :
    packWord (opField w) (rdField w) 0 0 = w := by
  have hrs1 : rs1Field w = 0#8 := field_eq_zero (start := 16) fun i hi => by
    have := congrArg (fun v : CmdWord => v.getLsbD (16 + i)) h
    interval_cases i <;> simpa [opField] using this
  have hrs2 : rs2Field w = 0#8 := field_eq_zero (start := 24) fun i hi => by
    have := congrArg (fun v : CmdWord => v.getLsbD (24 + i)) h
    interval_cases i <;> simpa [opField] using this
  conv_rhs => rw [← packWord_fields w, hrs1, hrs2]
  rfl

theorem packWord_of_and_DS {w : CmdWord} (h : w &&& 0xFF0000FF#32 = (opField w).setWidth 32) :
    packWord (opField w) (rdField w) (rs1Field w) 0 = w := by
  have hrs2 : rs2Field w = 0#8 := field_eq_zero (start := 24) fun i hi => by
    have := congrArg (fun v : CmdWord => v.getLsbD (24 + i)) h
    interval_cases i <;> simpa [opField] using this
  conv_rhs => rw [← packWord_fields w, hrs2]
  rfl

theorem packWord_of_and_DST {w : CmdWord} (_ : w &&& 0x000000FF#32 = (opField w).setWidth 32) :
    packWord (opField w) (rdField w) (rs1Field w) (rs2Field w) = w := packWord_fields w

theorem packWord_of_and_S {w : CmdWord} (h : w &&& 0xFF00FFFF#32 = (opField w).setWidth 32) :
    packWord (opField w) 0 (rs1Field w) 0 = w := by
  have hrd : rdField w = 0#8 := field_eq_zero (start := 8) fun i hi => by
    have := congrArg (fun v : CmdWord => v.getLsbD (8 + i)) h
    interval_cases i <;> simpa [opField] using this
  have hrs2 : rs2Field w = 0#8 := field_eq_zero (start := 24) fun i hi => by
    have := congrArg (fun v : CmdWord => v.getLsbD (24 + i)) h
    interval_cases i <;> simpa [opField] using this
  conv_rhs => rw [← packWord_fields w, hrd, hrs2]
  rfl

theorem packWord_of_and_SS {w : CmdWord} (h : w &&& 0x0000FFFF#32 = (opField w).setWidth 32) :
    packWord (opField w) 0 (rs1Field w) (rs2Field w) = w := by
  have hrd : rdField w = 0#8 := field_eq_zero (start := 8) fun i hi => by
    have := congrArg (fun v : CmdWord => v.getLsbD (8 + i)) h
    interval_cases i <;> simpa [opField] using this
  conv_rhs => rw [← packWord_fields w, hrd]
  rfl

end Sys2Proof
end

