-- ==== Sys2Proof/Laws/HostProgram.lean ====
section
/-! SUPPORT. What the host program's helpers answer: where a label leads, and when a run has ended (spec/30_encoding.md
R88; spec/70_reset_and_hazards.md R254). -/

namespace Sys2Proof.Machine

/-- A branch goes behind the first occurrence of its label. -/
theorem labelTarget_eq_some {name : String} {program : List HostStmt} {n : Nat} :
    labelTarget name program = some n ↔
      ∃ before after, program = before ++ .label name :: after ∧ .label name ∉ before ∧ n = before.length + 1 := by
  induction program generalizing n with
  | nil => simp [labelTarget]
  | cons st rest ih =>
    by_cases hst : st = .label name
    · subst hst
      simp only [labelTarget, if_true, Option.some.injEq]
      constructor
      · rintro rfl
        exact ⟨[], rest, rfl, by simp, rfl⟩
      · rintro ⟨before, after, hp, hb, rfl⟩
        cases before with
        | nil => rfl
        | cons b bs => simp_all
    · simp only [labelTarget, if_neg hst, Option.map_eq_some_iff, ih]
      constructor
      · rintro ⟨_, ⟨before, after, rfl, hb, rfl⟩, rfl⟩
        exact ⟨st :: before, after, rfl, by simp [hb, Ne.symm hst], rfl⟩
      · rintro ⟨before, after, hp, hb, rfl⟩
        cases before with
        | nil => simp_all
        | cons b bs =>
          obtain ⟨-, rfl⟩ := List.cons.inj hp
          exact ⟨_, ⟨bs, after, rfl, fun h => hb (List.mem_cons_of_mem _ h), rfl⟩, rfl⟩

/-- A branch has no target exactly when its label stands nowhere. -/
theorem labelTarget_eq_none {name : String} {program : List HostStmt} :
    labelTarget name program = none ↔ .label name ∉ program := by
  induction program with
  | nil => simp [labelTarget]
  | cons st rest ih =>
    by_cases hst : st = .label name
    · simp [labelTarget, hst]
    · simp [labelTarget, hst, ih, Ne.symm hst]

/-- A program has a final `wait` exactly when it is a `wait` followed by `read` statements only. -/
theorem hasFinalWait_iff (program : List HostStmt) :
    hasFinalWait program = true ↔
      ∃ body reads, program = body ++ .wait :: reads ∧ ∀ st ∈ reads, st.isRead = true := by
  simp only [hasFinalWait, decide_eq_true_eq]
  constructor
  · intro h
    obtain ⟨rest, hr⟩ : ∃ rest, program.reverse.dropWhile HostStmt.isRead = .wait :: rest := by
      cases hd : program.reverse.dropWhile HostStmt.isRead with
      | nil => simp [hd] at h
      | cons st rest => exact ⟨rest, by simpa [hd] using h⟩
    refine ⟨rest.reverse, (program.reverse.takeWhile HostStmt.isRead).reverse, ?_, fun st hst => ?_⟩
    · have := congrArg List.reverse (List.takeWhile_append_dropWhile (p := HostStmt.isRead) (l := program.reverse))
      rw [hr] at this
      simpa using this.symm
    · exact List.mem_takeWhile_imp (List.mem_reverse.1 hst)
  · rintro ⟨body, reads, rfl, hreads⟩
    have : (body ++ .wait :: reads).reverse = reads.reverse ++ .wait :: body.reverse := by simp
    rw [this, List.dropWhile_append_of_pos (by simpa using hreads)]
    rfl

/-- A run has ended exactly when the host has passed its program and the program has a final `wait`. -/
theorem State.runEnded_iff (s : State) :
    s.runEnded = true ↔ s.host.program.length ≤ s.host.pos ∧ hasFinalWait s.host.program = true := by
  simp [State.runEnded]

end Sys2Proof.Machine
end

