-- ==== Sys2Proof/Laws/Window.lean ====
section
/-! SUPPORT. The window: which register an offset reaches, and the `PARAM` word as a number (spec/10_state.md R30;
spec/20_memory.md R54, R55, R60). -/

namespace Sys2Proof.Machine

/-- The named registers stand at their offsets and nowhere else (R54). -/
theorem windowRegAt_eq_some (o : Nat) (r : WindowReg) : windowRegAt o = some r ↔ o = r.offset := by
  constructor
  · intro h
    unfold windowRegAt at h
    split at h <;> first | (cases h; rfl) | cases h
  · rintro rfl
    cases r <;> rfl

/-- An offset that is no named register's is reserved or misaligned (R54, R60). -/
theorem windowRegAt_eq_none (o : Nat) : windowRegAt o = none ↔ ∀ r : WindowReg, o ≠ r.offset := by
  rw [Option.eq_none_iff_forall_ne_some]
  exact forall_congr' fun r => not_congr (windowRegAt_eq_some o r)

/-- Every offset below 256 lies in the window (R60). -/
theorem inWindow_offset (p : Params) (o : Nat) (h : o < 256) : inWindow p (p.base + o) = true := by
  simp [inWindow, h]

/-- A 64-bit access at an offset reaches the register that stands there (R54, R55). -/
theorem reached_offset (p : Params) (o : Nat) (h : o < 256) : reached p (p.base + o) 8 = windowRegAt o := by
  rw [reached, if_pos ⟨rfl, inWindow_offset p o h⟩, Nat.add_sub_cancel_left]

theorem WindowReg.offset_lt (r : WindowReg) : r.offset < 256 := by cases r <;> decide

/-- A 64-bit access at a named register's offset reaches it (R54). -/
theorem reached_named (p : Params) (r : WindowReg) : reached p (p.base + r.offset) 8 = some r := by
  rw [reached_offset p _ r.offset_lt, windowRegAt_eq_some]

/-- The `PARAM` word as a number (R30). -/
theorem State.paramWord_toNat (s : State) :
    s.paramWord.toNat = 2 ^ 32 + s.params.schoolbookMax % 2 ^ 16 * 2 ^ 16 + s.params.nreg % 2 ^ 16 := by
  have h1 : (BitVec.ofNat 16 s.params.schoolbookMax).toNat < 2 ^ 16 := BitVec.isLt _
  have h2 : (BitVec.ofNat 16 s.params.nreg).toNat < 2 ^ 16 := BitVec.isLt _
  unfold State.paramWord
  rw [BitVec.toNat_append, BitVec.toNat_append, ← Nat.shiftLeft_add_eq_or_of_lt h2,
    ← Nat.shiftLeft_add_eq_or_of_lt h1, Nat.shiftLeft_eq, Nat.shiftLeft_eq]
  rw [show (0#24 ++ 1#8).toNat = 1 from rfl]
  simp only [BitVec.toNat_ofNat]
  omega

end Sys2Proof.Machine
end

