-- ==== Sys2Proof/Laws/Step.lean ====
section
/-! SUPPORT. One step by its event, and a run step by step (spec/20_memory.md R52, R59, R62). -/

namespace Sys2Proof.Machine

/-- A scheduled access within the window is what the step does (R59, R62). -/
theorem step_access {s : State} {a : Access} {rest : List Event} (h : s.schedule = .access a :: rest)
    (hin : inWindow s.params a.addr = true) : step s = .next ({ s with schedule := rest }.windowAccess a) := by
  simp only [step, State.nextEvent, h, agentStep, State.popEvent, accessStep, hin]
  rfl

/-- When the engine steps on a word that decodes, the step is that command's meaning (R52, R84). -/
theorem step_engine_ok {s : State} {w : CmdWord} {i : Instr} (he : s.nextEvent = .engine) (hp : s.pending = some w)
    (hd : decodeWord w = .ok i) : step s = exec i s.popEvent := by
  simp only [step, he, agentStep, engineStep, show s.popEvent.pending = some w from hp, hd]

/-- When the engine steps on a word that does not decode, the command fails with IllegalCommand (R84, R86). -/
theorem step_engine_error {s : State} {w : CmdWord} {e : DecodeReject} (he : s.nextEvent = .engine)
    (hp : s.pending = some w) (hd : decodeWord w = .error e) : step s = .next (s.popEvent.fail .illegalCommand w) := by
  simp only [step, he, agentStep, engineStep, show s.popEvent.pending = some w from hp, hd]

/-- A run goes on from the state that its first step gives. -/
theorem core_run_succ {s t : State} (h : step s = .next t) (k : Nat) :
    Sys2Proof.core.run (k + 1) s = Sys2Proof.core.run k t := by
  have h' : Sys2Proof.core.step s = .next t := h
  simp only [Host.Core.run, h']

end Sys2Proof.Machine
end

