-- ==== Sys2Proof/Tests/Slice0.lean ====
section
/-! SUPPORT. The model's own tests, each on one step or one word. Expected values come from the encoding tables of
spec/30_encoding.md and from the vectors of spec/95_test_vectors.md, named V.. in the comments. The last section has one
witness for the hypotheses of every obligation that has some. -/

namespace Sys2Proof.Tests
open Sys2Proof.Machine

/-! ### Decoding: words written out from R80, R81 and R85, with `rd = 1`, `rs1 = 2`, `rs2 = 3` -/

theorem test_decode_limb_store :
    decodeWord 0x00000000#32 = .ok .nop ∧
    decodeWord 0x00000101#32 = .ok (.ldi 1) ∧
    decodeWord 0x00020102#32 = .ok (.copy 1 2) ∧
    decodeWord 0x00020103#32 = .ok (.move 1 2) ∧
    decodeWord 0x00000104#32 = .ok (.resize 1) ∧
    decodeWord 0x00020005#32 = .ok (.rdlimb 2) ∧
    decodeWord 0x00000106#32 = .ok (.wrlimb 1) ∧
    decodeWord 0x00020007#32 = .ok (.len 2) ∧
    decodeWord 0x00020008#32 = .ok (.cap 2) ∧
    decodeWord 0x00020009#32 = .ok (.bitlen 2) := by decide

theorem test_encode_limb_store :
    encode .nop = 0x00000000#32 ∧
    encode (.ldi 1) = 0x00000101#32 ∧
    encode (.copy 1 2) = 0x00020102#32 ∧
    encode (.move 1 2) = 0x00020103#32 ∧
    encode (.resize 1) = 0x00000104#32 ∧
    encode (.rdlimb 2) = 0x00020005#32 ∧
    encode (.wrlimb 1) = 0x00000106#32 ∧
    encode (.len 2) = 0x00020007#32 ∧
    encode (.cap 2) = 0x00020008#32 ∧
    encode (.bitlen 2) = 0x00020009#32 := by decide

theorem test_decode_magnitude :
    decodeWord 0x03020110#32 = .ok (.addm 1 2 3) ∧
    decodeWord 0x03020111#32 = .ok (.subm 1 2 3) ∧
    decodeWord 0x03020012#32 = .ok (.cmpm 2 3) := by decide

theorem test_encode_magnitude :
    encode (.addm 1 2 3) = 0x03020110#32 ∧
    encode (.subm 1 2 3) = 0x03020111#32 ∧
    encode (.cmpm 2 3) = 0x03020012#32 := by decide

theorem test_decode_multiply :
    decodeWord 0x03020120#32 = .ok (.mul 1 2 3) ∧
    decodeWord 0x03020121#32 = .ok (.muls 1 2 3) ∧
    decodeWord 0x03020122#32 = .ok (.mulk 1 2 3) ∧
    decodeWord 0x03020123#32 = .ok (.mulf 1 2 3) := by decide

theorem test_encode_multiply :
    encode (.mul 1 2 3) = 0x03020120#32 ∧
    encode (.muls 1 2 3) = 0x03020121#32 ∧
    encode (.mulk 1 2 3) = 0x03020122#32 ∧
    encode (.mulf 1 2 3) = 0x03020123#32 := by decide

theorem test_decode_divide :
    decodeWord 0x03020130#32 = .ok (.div 1 2 3) ∧
    decodeWord 0x03020131#32 = .ok (.mod 1 2 3) := by decide

theorem test_encode_divide :
    encode (.div 1 2 3) = 0x03020130#32 ∧
    encode (.mod 1 2 3) = 0x03020131#32 := by decide

theorem test_decode_bitwise :
    decodeWord 0x03020140#32 = .ok (.and 1 2 3) ∧
    decodeWord 0x03020141#32 = .ok (.or 1 2 3) ∧
    decodeWord 0x03020142#32 = .ok (.xor 1 2 3) ∧
    decodeWord 0x00020143#32 = .ok (.shl 1 2) ∧
    decodeWord 0x00020144#32 = .ok (.shr 1 2) := by decide

theorem test_encode_bitwise :
    encode (.and 1 2 3) = 0x03020140#32 ∧
    encode (.or 1 2 3) = 0x03020141#32 ∧
    encode (.xor 1 2 3) = 0x03020142#32 ∧
    encode (.shl 1 2) = 0x00020143#32 ∧
    encode (.shr 1 2) = 0x00020144#32 := by decide

theorem test_decode_signed :
    decodeWord 0x03020150#32 = .ok (.add 1 2 3) ∧
    decodeWord 0x03020151#32 = .ok (.sub 1 2 3) ∧
    decodeWord 0x00020152#32 = .ok (.neg 1 2) ∧
    decodeWord 0x00020153#32 = .ok (.abs 1 2) ∧
    decodeWord 0x03020054#32 = .ok (.cmp 2 3) ∧
    decodeWord 0x00020055#32 = .ok (.iszero 2) ∧
    decodeWord 0x00020056#32 = .ok (.isneg 2) := by decide

theorem test_encode_signed :
    encode (.add 1 2 3) = 0x03020150#32 ∧
    encode (.sub 1 2 3) = 0x03020151#32 ∧
    encode (.neg 1 2) = 0x00020152#32 ∧
    encode (.abs 1 2) = 0x00020153#32 ∧
    encode (.cmp 2 3) = 0x03020054#32 ∧
    encode (.iszero 2) = 0x00020055#32 ∧
    encode (.isneg 2) = 0x00020056#32 := by decide

/-- One word a format, bit by bit from the patterns of R81: DST (ADD r1, r2, r3), DS (SHL r4, r5), SS (CMP r6, r7), S
(LEN r8), D (LDI r9), N (NOP). -/
theorem test_decode_bit_patterns :
    decodeWord 0b00000011000000100000000101010000#32 = .ok (.add 1 2 3) ∧
    decodeWord 0b00000000000001010000010001000011#32 = .ok (.shl 4 5) ∧
    decodeWord 0b00000111000001100000000001010100#32 = .ok (.cmp 6 7) ∧
    decodeWord 0b00000000000010000000000000000111#32 = .ok (.len 8) ∧
    decodeWord 0b00000000000000000000100100000001#32 = .ok (.ldi 9) ∧
    decodeWord 0b00000000000000000000000000000000#32 = .ok .nop := by decide

/-- The ends of every unassigned opcode range (R86; V30-01, V30-02). -/
theorem test_decode_unassigned :
    [0x0A, 0x0F, 0x13, 0x1F, 0x24, 0x2F, 0x32, 0x3F, 0x45, 0x4F, 0x57, 0xFF].map (fun w => decodeWord (BitVec.ofNat 32 w))
      = List.replicate 12 (.error .unassignedOpcode) := by decide

/-- A must-be-zero field that is not zero, one word for each such field of each format (R81, R86; V30-03 to V30-05,
V30-09). -/
theorem test_decode_nonzero_unused_field :
    [0x00000100, 0x00010000, 0x01000000, 0x00010101, 0x01000101, 0x01020102, 0x00020105, 0x01020005, 0x02010154,
      0x00FF0100].map (fun w => decodeWord (BitVec.ofNat 32 w))
      = List.replicate 10 (.error .nonzeroUnusedField) := by decide

/-- `decodeTableWord` numbers bits as the opcode table does. -/
theorem test_decode_table_word :
    decodeTableWord 32 0x03020150 = some (.add 1 2 3) ∧ decodeTableWord 32 0x0A = none := by decide

/-- `withFetchWord` makes the next step run the word, after reset (V30-10 with r0: NEG r0, r0). -/
theorem test_with_fetch_word :
    ∃ t, step (State.reset.withFetchWord 32 0x00000052) = .next t ∧ t.pending = none ∧ t.err = none ∧ t.schedule = [] :=
  ⟨_, rfl, by decide⟩

/-! ### Well-formedness: the check refuses an ill-formed term in each field (R83, R221) -/

theorem test_wellFormed_refuses :
    (Instr.ldi 16).wellFormed 16 = false ∧
    (Instr.len 16).wellFormed 16 = false ∧
    (Instr.copy 16 0).wellFormed 16 = false ∧ (Instr.copy 0 16).wellFormed 16 = false ∧
    (Instr.cmp 16 0).wellFormed 16 = false ∧ (Instr.cmp 0 16).wellFormed 16 = false ∧
    (Instr.add 16 0 0).wellFormed 16 = false ∧ (Instr.add 0 16 0).wellFormed 16 = false ∧
    (Instr.add 0 0 16).wellFormed 16 = false ∧
    (Instr.add 15 15 15).wellFormed 16 = true ∧ (Instr.add 255 255 255).wellFormed 256 = true := by decide

/-- Each parameter outside R6's range. -/
theorem test_params_refuses :
    Params.reference.legal = true ∧
    { Params.reference with nreg := 0 }.legal = false ∧ { Params.reference with nreg := 257 }.legal = false ∧
    { Params.reference with maxLimbs := 0 }.legal = false ∧
    { Params.reference with maxLimbs := 2 ^ 57 + 1 }.legal = false ∧
    { Params.reference with schoolbookMax := 2 }.legal = false ∧
    { Params.reference with schoolbookMax := 65536, fftThreshold := 65536 }.legal = false ∧
    { Params.reference with fftThreshold := 31 }.legal = false ∧
    { Params.reference with fftThreshold := 2 ^ 64 }.legal = false ∧
    { Params.reference with base := 8 }.legal = false := by decide

/-- The conditions of R89's pseudo-instructions, and a `bnz` without its label. -/
theorem test_pseudo_refuses :
    (Pseudo.li 1 (2 ^ 63)).wellFormed = false ∧ (Pseudo.li 1 (-(2 ^ 63) - 1)).wellFormed = false ∧
    (Pseudo.li 1 (-(2 ^ 63))).wellFormed = true ∧
    (Pseudo.divmod 1 2 1 3).wellFormed = false ∧ (Pseudo.divmod 1 2 3 1).wellFormed = false ∧
    (Pseudo.divmod 1 1 2 3).wellFormed = false ∧ (Pseudo.divmod 4 5 3 1).wellFormed = true ∧
    branchesResolve [.bnz "a"] = false ∧ branchesResolve [.label "a", .bnz "a"] = true := by decide

/-! ### One command at a time -/

/-- The reset state of the reference instance with the first registers and the operands given. -/
def start (regs : List BigReg) (arg0 arg1 : Word) : State :=
  { State.reset with regs := regs ++ List.replicate (16 - regs.length) BigReg.zero, arg0 := arg0, arg1 := arg1 }

/-- A value of at most one limb, in a register of its length. -/
def small (x : Int) : BigReg :=
  { sign := decide (x < 0), limbs := if x = 0 then [] else [BitVec.ofNat 64 x.natAbs], cap := if x = 0 then 0 else 1 }

/-- The state after a command. -/
def after (i : Instr) (s : State) : State :=
  match exec i s with
  | .next t => t
  | _ => s

/-- R100's example: `ERR` 0, `STICKY_ERR` stays. -/
theorem test_nop_clears_err :
    (after .nop { start [] 0 0 with err := some .divisionByZero, stickyErr := true }).err = none ∧
    (after .nop { start [] 0 0 with err := some .divisionByZero, stickyErr := true }).stickyErr = true := by decide

/-- V40-03 -/
theorem test_ldi_most_negative :
    (after (.ldi 1) (start [] 0x8000000000000000 0)).reg 1 = { sign := true, limbs := [0x8000000000000000], cap := 1 } := by decide

/-- V40-05 -/
theorem test_ldi_keeps_cap :
    (after (.ldi 0) (start [{ sign := false, limbs := [], cap := 5 }] 3 0)).reg 0 = { sign := false, limbs := [3], cap := 5 } := by decide

/-- V40-06 -/
theorem test_copy_shrinks_cap :
    (after (.copy 1 0) (start [{ sign := false, limbs := [7], cap := 5 }, { sign := false, limbs := [], cap := 9 }] 0 0)).reg 1 = { sign := false, limbs := [7], cap := 1 } := by decide

/-- V40-07 -/
theorem test_copy_self :
    (after (.copy 0 0) (start [{ sign := false, limbs := [7], cap := 5 }] 0 0)).reg 0 = { sign := false, limbs := [7], cap := 1 } := by decide

/-- V40-09 -/
theorem test_move_transfers :
    ((after (.move 1 0) (start [{ sign := true, limbs := [5], cap := 2 }, { sign := false, limbs := [9], cap := 7 }] 0 0)).regs.take 2) =
      [{ sign := false, limbs := [], cap := 0 }, { sign := true, limbs := [5], cap := 2 }] := by decide

/-- V40-10 -/
theorem test_move_self :
    (after (.move 0 0) (start [{ sign := true, limbs := [5], cap := 2 }] 0 0)).reg 0 = { sign := true, limbs := [5], cap := 2 } := by decide

/-- V40-12 -/
theorem test_resize_no_shrink :
    (after (.resize 0) (start [{ sign := false, limbs := [3], cap := 8 }] 2 0)).reg 0 = { sign := false, limbs := [3], cap := 8 } := by decide

/-- V40-14 -/
theorem test_resize_above_maxlimbs :
    (after (.resize 0) (start [small 3] 0x401 0)).err = some .capacityExceeded := by decide

/-- V40-16 -/
theorem test_rdlimb_top :
    (after (.rdlimb 0) (start [{ sign := true, limbs := [5, 1], cap := 2 }] 1 0)).result = 1 := by decide

/-- V40-18 -/
theorem test_rdlimb_largest_index :
    (after (.rdlimb 0) (start [{ sign := true, limbs := [5, 1], cap := 2 }] 0xFFFFFFFFFFFFFFFF 0)).result = 0 := by decide

/-- V40-21 -/
theorem test_wrlimb_shrinks :
    (after (.wrlimb 0) (start [{ sign := false, limbs := [5, 1], cap := 2 }] 1 0)).reg 0 = { sign := false, limbs := [5], cap := 2 } := by decide

/-- V40-23 -/
theorem test_wrlimb_zero_clears_sign :
    (after (.wrlimb 0) (start [small (-5)] 0 0)).reg 0 = { sign := false, limbs := [], cap := 1 } := by decide

/-- V40-26 -/
theorem test_len :
    (after (.len 0) (start [{ sign := false, limbs := [0, 1], cap := 2 }] 0 0)).result = 2 := by decide

/-- V40-28 -/
theorem test_cap :
    (after (.cap 0) (start [{ sign := false, limbs := [3], cap := 8 }] 0 0)).result = 8 := by decide

/-- V40-31 -/
theorem test_bitlen_two_limbs :
    (after (.bitlen 0) (start [{ sign := false, limbs := [0, 1], cap := 2 }] 0 0)).result = 0x41 := by decide

/-- V40-30 -/
theorem test_bitlen_negative :
    (after (.bitlen 0) (start [small (-1)] 0 0)).result = 1 := by decide

/-- V41-03 -/
theorem test_addm_carry :
    (after (.addm 2 0 1) (start [{ sign := false, limbs := [0xFFFFFFFFFFFFFFFF], cap := 1 }, small 1] 0 0)).reg 2 = { sign := false, limbs := [0, 1], cap := 2 } := by decide

/-- V41-02 -/
theorem test_addm_both_negative :
    (after (.addm 2 0 1) (start [small (-3), small (-4)] 0 0)).reg 2 = { sign := false, limbs := [7], cap := 1 } := by decide

/-- V41-07 -/
theorem test_subm_borrow :
    (after (.subm 2 0 1) (start [{ sign := false, limbs := [0, 1], cap := 2 }, small 1] 0 0)).reg 2 = { sign := false, limbs := [0xFFFFFFFFFFFFFFFF], cap := 1 } := by decide

/-- V41-10 -/
theorem test_subm_order :
    (after (.subm 2 0 1) (start [small 3, small 5] 0 0)).err = some .magnitudeOrder := by decide

/-- V41-13 -/
theorem test_cmpm_less :
    (after (.cmpm 0 1) (start [small 3, small (-5)] 0 0)).result = 0xFFFFFFFFFFFFFFFF := by decide

/-- V41-12 -/
theorem test_cmpm_longer :
    (after (.cmpm 0 1) (start [{ sign := false, limbs := [0, 1], cap := 2 }, { sign := false, limbs := [0xFFFFFFFFFFFFFFFF], cap := 1 }] 0 0)).result = 1 := by decide

/-- V42-03 -/
theorem test_mul_signs :
    (after (.mul 2 0 1) (start [small (-3), small 7] 0 0)).reg 2 = { sign := true, limbs := [21], cap := 1 } := by decide

/-- V42-05 -/
theorem test_mul_square_in_place :
    (after (.mul 0 0 0) (start [{ sign := false, limbs := [0xFFFFFFFFFFFFFFFF], cap := 1 }] 0 0)).reg 0 = { sign := false, limbs := [1, 0xFFFFFFFFFFFFFFFE], cap := 2 } := by decide

/-- V42-12 in small: the path is schoolbook also above the thresholds. -/
theorem test_muls_path :
    (after (.muls 2 0 1) { start [{ sign := false, limbs := [0, 0, 0, 0, 1], cap := 5 }, small 3] 0 0 with
      params := { Params.reference with schoolbookMax := 3, fftThreshold := 4 } }).mulPath = .schoolbook := by decide

/-- V42-15 in small: Karatsuba above both thresholds, with the product's limbs. -/
theorem test_mulk_path :
    (after (.mulk 2 0 1) { start [{ sign := false, limbs := [0, 0, 0, 0, 1], cap := 5 }, small 3] 0 0 with
      params := { Params.reference with schoolbookMax := 3, fftThreshold := 4 } }).mulPath = .karatsuba ∧
    (after (.mulk 2 0 1) { start [{ sign := false, limbs := [0, 0, 0, 0, 1], cap := 5 }, small 3] 0 0 with
      params := { Params.reference with schoolbookMax := 3, fftThreshold := 4 } }).reg 2 = { sign := false, limbs := [0, 0, 0, 0, 3], cap := 5 } := by decide

/-- V42-16 -/
theorem test_mulf_one_limb :
    (after (.mulf 2 0 1) (start [{ sign := false, limbs := [0xFFFFFFFFFFFFFFFF], cap := 1 }, { sign := false, limbs := [0xFFFFFFFFFFFFFFFF], cap := 1 }] 0 0)).reg 2 = { sign := false, limbs := [1, 0xFFFFFFFFFFFFFFFE], cap := 2 } ∧
    (after (.mulf 2 0 1) (start [{ sign := false, limbs := [0xFFFFFFFFFFFFFFFF], cap := 1 }, { sign := false, limbs := [0xFFFFFFFFFFFFFFFF], cap := 1 }] 0 0)).mulPath = .fft := by decide

/-- V42-17 -/
theorem test_mulf_zero :
    (after (.mulf 2 0 1) (start [BigReg.zero, { sign := false, limbs := [0xFFFFFFFFFFFFFFFF], cap := 1 }] 0 0)).mulPath = .zeroOperand := by decide

/-- V43-11 -/
theorem test_div_signs :
    (after (.div 2 0 1) (start [small (-5), small 2] 0 0)).reg 2 = { sign := true, limbs := [2], cap := 1 } := by decide

/-- V43-27 -/
theorem test_div_zero_by_zero :
    (after (.div 2 0 1) (start [] 0 0)).err = some .divisionByZero := by decide

/-- V43-10 -/
theorem test_mod_signs :
    (after (.mod 2 0 1) (start [small 5, small (-2)] 0 0)).reg 2 = { sign := false, limbs := [1], cap := 1 } := by decide

/-- V43-22 -/
theorem test_mod_two_limbs :
    (after (.mod 2 0 1) (start [{ sign := false, limbs := [0, 0, 1], cap := 3 }, { sign := false, limbs := [1, 1], cap := 2 }] 0 0)).reg 2 = { sign := false, limbs := [1], cap := 1 } := by decide

/-- V44-01 -/
theorem test_and_negative :
    (after (.and 2 0 1) (start [small (-78187493520), small 78187493520] 0 0)).reg 2 = { sign := false, limbs := [16], cap := 1 } := by decide

/-- V44-04 -/
theorem test_and_carry_out :
    (after (.and 2 0 1) (start [{ sign := true, limbs := [0x8000000000000000], cap := 1 }, { sign := true, limbs := [0xFFFFFFFFFFFFFFFF], cap := 1 }] 0 0)).reg 2 = { sign := true, limbs := [0, 1], cap := 2 } := by decide

/-- V44-02 -/
theorem test_or_negative :
    (after (.or 2 0 1) (start [small (-78187493520), small 78187493520] 0 0)).reg 2 = { sign := true, limbs := [16], cap := 1 } := by decide

/-- V44-08 -/
theorem test_or_minus_one :
    (after (.or 2 0 1) (start [{ sign := false, limbs := [0, 64], cap := 2 }, small (-1)] 0 0)).reg 2 = { sign := true, limbs := [1], cap := 1 } := by decide

/-- V44-03 -/
theorem test_xor_negative :
    (after (.xor 2 0 1) (start [small (-78187493520), small 78187493520] 0 0)).reg 2 = { sign := true, limbs := [32], cap := 1 } := by decide

/-- V44-05 -/
theorem test_xor_carry_out :
    (after (.xor 2 0 1) (start [small (-1), { sign := false, limbs := [0xFFFFFFFFFFFFFFFF], cap := 1 }] 0 0)).reg 2 = { sign := true, limbs := [0, 1], cap := 2 } := by decide

/-- V44-16 -/
theorem test_shl_by_64 :
    (after (.shl 2 0) (start [small 1] 64 0)).reg 2 = { sign := false, limbs := [0, 1], cap := 2 } := by decide

/-- V44-21 -/
theorem test_shl_past_capacity :
    (after (.shl 2 0) (start [small 1] 0x10000 0)).err = some .capacityExceeded := by decide

/-- V44-22 -/
theorem test_shr_across_limbs :
    (after (.shr 2 0) (start [{ sign := false, limbs := [5, 1], cap := 2 }] 1 0)).reg 2 = { sign := false, limbs := [0x8000000000000002], cap := 1 } := by decide

/-- V44-24 -/
theorem test_shr_minus_one :
    (after (.shr 2 0) (start [small (-1)] 1 0)).reg 2 = { sign := false, limbs := [], cap := 0 } := by decide

/-- V45-03 -/
theorem test_add_mixed_signs :
    (after (.add 2 0 1) (start [small 3, small (-5)] 0 0)).reg 2 = { sign := true, limbs := [2], cap := 1 } := by decide

/-- V45-04 -/
theorem test_add_negative_carry :
    (after (.add 2 0 1) (start [{ sign := true, limbs := [0xFFFFFFFFFFFFFFFF], cap := 1 }, small (-1)] 0 0)).reg 2 = { sign := true, limbs := [0, 1], cap := 2 } := by decide

/-- V45-10 -/
theorem test_sub_from_zero :
    (after (.sub 2 0 1) (start [BigReg.zero, { sign := false, limbs := [0, 1], cap := 2 }] 0 0)).reg 2 = { sign := true, limbs := [0, 1], cap := 2 } := by decide

/-- V45-11 -/
theorem test_sub_self :
    (after (.sub 0 0 0) (start [small (-9)] 0 0)).reg 0 = { sign := false, limbs := [], cap := 1 } := by decide

/-- V45-13 -/
theorem test_neg :
    (after (.neg 0 0) (start [small 5] 0 0)).reg 0 = { sign := true, limbs := [5], cap := 1 } := by decide

/-- V45-14 -/
theorem test_neg_zero :
    (after (.neg 0 1) (start [] 0 0)).reg 0 = { sign := false, limbs := [], cap := 0 } := by decide

/-- V45-16 -/
theorem test_abs_two_limbs :
    (after (.abs 1 0) (start [{ sign := true, limbs := [0, 1], cap := 2 }] 0 0)).reg 1 = { sign := false, limbs := [0, 1], cap := 2 } := by decide

/-- V45-18 -/
theorem test_cmp_both_negative :
    (after (.cmp 0 1) (start [{ sign := true, limbs := [0, 1], cap := 2 }, small (-1)] 0 0)).result = 0xFFFFFFFFFFFFFFFF := by decide

/-- V45-19 -/
theorem test_cmp_greater :
    (after (.cmp 0 1) (start [{ sign := false, limbs := [0, 1], cap := 2 }, { sign := true, limbs := [0, 64], cap := 2 }] 0 0)).result = 1 := by decide

/-- V45-22 -/
theorem test_iszero_zero :
    (after (.iszero 0) (start [] 0 0)).result = 1 := by decide

/-- V45-23 -/
theorem test_iszero_nonzero :
    (after (.iszero 0) (start [small (-1)] 0 0)).result = 0 := by decide

/-- V45-24 -/
theorem test_isneg_negative :
    (after (.isneg 0) (start [small (-1)] 0 0)).result = 1 := by decide

/-- V45-25 -/
theorem test_isneg_zero :
    (after (.isneg 0) (start [] 0 0)).result = 0 := by decide

/-! ### Errors (R220 to R224) -/

/-- V30-06: `r16` on an instance with 16 registers. -/
theorem test_bad_register :
    (after (.add 16 1 1) (start [small 5, small 5] 0 0)).err = some .badRegister ∧
    (after (.add 16 1 1) (start [small 5, small 5] 0 0)).errCmd = 0x01011050 ∧
    (after (.add 16 1 1) (start [small 5, small 5] 0 0)).regs = (start [small 5, small 5] 0 0).regs := by decide

/-- V30-08: BadRegister comes before DivisionByZero. -/
theorem test_bad_register_first :
    (after (.div 20 1 2) (start [] 0 0)).err = some .badRegister := by decide

/-- V20-19: a failing multiply keeps `MULPATH` and reads `0x2160`, here with one limb as the capacity. -/
theorem test_failing_multiply_keeps_path :
    (after (.mul 0 1 1) { start [small 0, small (2 ^ 63)] 0 0 with
      params := { Params.reference with maxLimbs := 1 }, mulPath := .karatsuba }).statusWord = 0x2160 := by decide

/-! ### The window, one access a step -/

/-- A state whose next step is the given event. -/
def next (e : Event) (s : State) : State := { s with schedule := [e] }

/-- The state after one step. -/
def stepped (s : State) : State :=
  match step s with
  | .next t => t
  | _ => s

/-- V20-02, V20-03: the parameter registers. -/
theorem test_read_params :
    (stepped (next (.access (.read 0x28 8)) State.reset)).readLog = [0x0000000100200010] ∧
    (stepped (next (.access (.read 0x30 8)) State.reset)).readLog = [0x400] ∧
    (stepped (next (.access (.read 0x38 8)) State.reset)).readLog = [0x200] := by decide

/-- V20-05: a reserved offset reads 0. -/
theorem test_read_reserved : (stepped (next (.access (.read 0xF8 8)) State.reset)).readLog = [0] := by decide

/-- V20-07: a narrow read of a `STATUS` of `0x120` gives 0, the whole read `0x120`. -/
theorem test_read_status :
    (stepped (next (.access (.read 0x20 4)) { State.reset with err := some .divisionByZero, stickyErr := true })).readLog
      = [0] ∧
    (stepped (next (.access (.read 0x20 8)) { State.reset with err := some .divisionByZero, stickyErr := true })).readLog
      = [0x120] := by decide

/-- V20-08, V20-09: narrow and misaligned writes have no effect. -/
theorem test_other_shapes :
    stepped (next (.access (.write 0x08 4 5)) State.reset) = State.reset ∧
    stepped (next (.access (.write 0x04 8 0x101)) State.reset) = State.reset := by decide

/-- V20-11: acceptance sets `BUSY` and latches bits 31:0 (V20-10). -/
theorem test_accept :
    (stepped (next (.access (.write 0x00 8 0xFFFFFFFF02010320)) State.reset)).pending = some 0x02010320 ∧
    (stepped (next (.access (.write 0x00 8 0xFFFFFFFF02010320)) State.reset)).statusWord = 0x1 := by decide

/-- V20-12: a `CMD` write while busy is dropped; `STATUS` reads `0x201`. -/
theorem test_dropped_command :
    (stepped (next (.access (.write 0x00 8 0)) { State.reset with pending := some 0x02010320 })).pending
      = some 0x02010320 ∧
    (stepped (next (.access (.write 0x00 8 0)) { State.reset with pending := some 0x02010320 })).statusWord = 0x201 := by
  decide

/-- V20-13: an `ARG0` write while busy is dropped. -/
theorem test_dropped_operand :
    (stepped (next (.access (.write 0x08 8 9)) { State.reset with pending := some 0x101, arg0 := 5 })).arg0 = 5 := by
  decide

/-- V20-16: W1C clears only the written ones. -/
theorem test_clear_flags :
    (stepped (next (.access (.write 0x20 8 0x200))
      { State.reset with err := some .divisionByZero, stickyErr := true, cmdLost := true })).statusWord = 0x120 ∧
    (stepped (next (.access (.write 0x20 8 0xFFFFFFFFFFFFFFFF))
      { State.reset with err := some .divisionByZero, stickyErr := true })).statusWord = 0x020 := by decide

/-- V70-01: reset with a command pending. -/
theorem test_reset :
    stepped (next .reset { start [small 5] 7 9 with result := 4, errCmd := 0x02010330, pending := some 0x02010320 })
      = State.reset := by decide

/-! ### The host's text (R88, R89) and its statements -/

theorem test_assemble_command :
    assembleLine "        MUL     r3, r1, r2   ; 0x02010320" = some [.command (.mul 3 1 2)] := by decide

theorem test_assemble_li :
    assembleLine "li r1, -5" = some [.wait, .arg0 (-5), .command (.ldi 1)] ∧
    assembleLine "li r6, -0x8000_0000_0000_0000" = some [.wait, .arg0 (-9223372036854775808), .command (.ldi 6)] := by decide

/-- R89's condition: `imm < 2^63`. -/
theorem test_assemble_li_range :
    assembleLine "li r6, 0x8000000000000000" = none ∧ assembleLine "li r6, 9223372036854775808" = none ∧
    assembleLine "li r6, 0x7FFF_FFFF_FFFF_FFFF" = some [.wait, .arg0 9223372036854775807, .command (.ldi 6)] := by decide

/-- R9: `_` belongs to hex literals. -/
theorem test_assemble_separator :
    assembleLine "arg0 0x1_0" = some [.arg0 16] ∧ assembleLine "arg0 1_0" = none ∧ assembleLine "arg0 0_x10" = none := by
  decide

theorem test_assemble_divmod :
    assembleLine "divmod r4, r5, r3, r1"
      = some [.wait, .command (.div 4 3 1), .wait, .command (.mod 5 3 1)] ∧
    assembleLine "divmod r3, r5, r3, r1" = none := by decide

theorem test_assemble_host :
    assemble ["loop:", "read RESULT", "bnz loop ; again", "", "clrflags", "cmd 0x0A"]
      = some [.label "loop", .read .result, .bnz "loop", .clrflags, .cmd 10] := by decide

theorem test_assemble_refuses : assembleLine "MUL r1, r2" = none ∧ assembleLine "LDI r256" = none := by decide

/-- Log 16: the ends of programs P1 and P4; a command after the last `wait` is no end. -/
theorem test_final_wait :
    hasFinalWait [.command .nop, .wait, .read .result, .read .status] = true ∧
    hasFinalWait [.wait, .command .nop, .read .result] = false ∧ hasFinalWait [] = false ∧
    hasFinalWait [.command .nop, .wait, .label "l"] = false := by decide

/-- A `bnz` on the value of the latest read, taken and not taken (R88; program P4). -/
theorem test_bnz :
    (stepped { State.reset with host :=
      { program := [.label "loop", .bnz "loop"], pos := 1, lastRead := some 0xFFFFFFFFFFFFFFFF } }).host.pos = 1 ∧
    (stepped { State.reset with host :=
      { program := [.label "loop", .bnz "loop"], pos := 1, lastRead := some 0 } }).host.pos = 2 := by decide

/-! ### Witnesses: a concrete state and operands that meet the hypotheses of each obligation, clause by clause -/

/-- A sound state: 7 registers of at most 5 limbs, at a base that is not 0. It holds 0, `-(2^64 + 5)`, 7, the largest value
`2^320 - 1`, a Karatsuba-sized value, `-2^319` and `-(2^319 + 1)`. -/
def sample (arg0 arg1 : Word) : State :=
  { State.resetOf { nreg := 7, maxLimbs := 5, schoolbookMax := 3, fftThreshold := 4, base := 0x100 } with
    regs :=
      [{ sign := false, limbs := [], cap := 0 },
        { sign := true, limbs := [5, 1], cap := 4 },
        { sign := false, limbs := [7], cap := 1 },
        { sign := false, limbs := List.replicate 5 0xFFFFFFFFFFFFFFFF, cap := 5 },
        { sign := false, limbs := [1, 0, 0, 1], cap := 4 },
        { sign := true, limbs := [0, 0, 0, 0, 0x8000000000000000], cap := 5 },
        { sign := true, limbs := [1, 0, 0, 0, 0x8000000000000000], cap := 5 }]
    arg0 := arg0
    arg1 := arg1 }

/-- The sample is sound, and its last register index is `NREG - 1`. Meets LdiWritesSignedArg0, LenAndCapAnswerLengths,
BitlenAnswersBitLength, ZeroAndSignTestsAnswerByValue, NegAndAbsWriteSignedValues, CmpmAnswersMagnitudeOrder,
CmpAnswersIntegerOrder, ShrDividesTowardZero, OrWritesIntegerOr, MultiplyPathsAgree, RdlimbAnswersLimbOfMagnitude,
CopyWritesValueAndTightCapacity and ParamWordFields. -/
theorem witness_sound :
    (sample 0xFFFFFFFFFFFFFFFF 9).wf ∧ (0 : Reg).toNat < (sample 0xFFFFFFFFFFFFFFFF 9).params.nreg ∧
    (6 : Reg).toNat < (sample 0xFFFFFFFFFFFFFFFF 9).params.nreg ∧
    (sample 0xFFFFFFFFFFFFFFFF 9).params.legal = true := by decide

/-- RdlimbAnswersLimbOfMagnitude: an index below the length, and one at it. -/
theorem witness_RdlimbAnswersLimbOfMagnitude :
    (sample 1 0).arg0.toNat < ((sample 1 0).reg 1).limbs.length ∧
    ((sample 2 0).reg 1).limbs.length ≤ (sample 2 0).arg0.toNat := by decide

/-- MoveTransfersRecordAndZeroesSource: two registers, and one twice. -/
theorem witness_MoveTransfersRecordAndZeroesSource :
    (6 : Reg).toNat < (sample 0 0).params.nreg ∧ (0 : Reg).toNat < (sample 0 0).params.nreg ∧
    (6 : Reg) ≠ 0 ∧ (6 : Reg) = 6 := by decide

/-- ResizeOnlyGrowsCapacity: `MAXLIMBS` and one more. -/
theorem witness_ResizeOnlyGrowsCapacity :
    (6 : Reg).toNat < (sample 5 0).params.nreg ∧ (sample 5 0).arg0.toNat ≤ (sample 5 0).params.maxLimbs ∧
    (6 : Reg).toNat < (sample 6 0).params.nreg ∧ (sample 6 0).params.maxLimbs < (sample 6 0).arg0.toNat := by decide

/-- WrlimbReplacesOneLimb and WrlimbLeavesEveryOtherLimb: the last legal index and the first illegal one; for the value
`m`, limb 0 of `-(2^64 + 5)` replaced by 9. -/
theorem witness_WrlimbReplacesOneLimb :
    (sample 4 9).wf ∧ (6 : Reg).toNat < (sample 4 9).params.nreg ∧
    (sample 4 9).arg0.toNat < (sample 4 9).params.maxLimbs ∧
    (sample 5 9).wf ∧ (sample 5 9).params.maxLimbs ≤ (sample 5 9).arg0.toNat ∧
    (2 ^ 64 + 9 : Int) = (((sample 0 9).val 1).natAbs : Int) -
      (((sample 0 9).limbRead 1 (sample 0 9).arg0.toNat).toNat : Int) * 2 ^ (64 * (sample 0 9).arg0.toNat) +
      ((sample 0 9).arg1.toNat : Int) * 2 ^ (64 * (sample 0 9).arg0.toNat) ∧
    ((6 : Reg) ≠ 5 ∨ 3 ≠ (sample 4 9).arg0.toNat) := by decide

/-- AddmSumsMagnitudes: a sum that fits, and one above the largest value by 1 limb. -/
theorem witness_AddmSumsMagnitudes :
    limbLen (((sample 0 0).val 3).natAbs + ((sample 0 0).val 0).natAbs) ≤ (sample 0 0).params.maxLimbs ∧
    (sample 0 0).params.maxLimbs < limbLen (((sample 0 0).val 3).natAbs + ((sample 0 0).val 2).natAbs) := by decide

/-- SubmSubtractsOrRaisesMagnitudeOrder: equal magnitudes, and a smaller minuend. -/
theorem witness_SubmSubtractsOrRaisesMagnitudeOrder :
    (sample 0 0).wf ∧ |(sample 0 0).val 5| ≤ |(sample 0 0).val 5| ∧ |(sample 0 0).val 5| < |(sample 0 0).val 6| := by
  decide

/-- MulWritesExactProductByDispatch and ForcedMultipliesWriteExactProduct: products that fit on every path (zero operand,
schoolbook, Karatsuba, FFT), and one that does not. -/
theorem witness_MulWritesExactProductByDispatch :
    (sample 0 0).wf ∧
    limbLen ((sample 0 0).val 0 * (sample 0 0).val 3).natAbs ≤ (sample 0 0).params.maxLimbs ∧
    limbLen ((sample 0 0).val 1 * (sample 0 0).val 2).natAbs ≤ (sample 0 0).params.maxLimbs ∧
    limbLen ((sample 0 0).val 4 * (sample 0 0).val 2).natAbs ≤ (sample 0 0).params.maxLimbs ∧
    max (limbLen ((sample 0 0).val 4).natAbs) (limbLen ((sample 0 0).val 2).natAbs) = 4 ∧
    (sample 0 0).params.maxLimbs < limbLen ((sample 0 0).val 3 * (sample 0 0).val 2).natAbs ∧
    max (limbLen ((sample 0 0).val 3).natAbs) (limbLen ((sample 0 0).val 2).natAbs) = 5 := by decide

/-- DivWritesTruncatingQuotient and ModWritesTruncatingRemainder: a divisor that is not 0, and one that is. -/
theorem witness_DivWritesTruncatingQuotient :
    (sample 0 0).wf ∧ (sample 0 0).val 1 ≠ 0 ∧ (sample 0 0).val 0 = 0 := by decide

/-- DivThenModRecombine: `rq = 0`, `rr = ra = 5`, `rb = 1`. -/
theorem witness_DivThenModRecombine :
    (sample 0 0).wf ∧ (0 : Reg).toNat < (sample 0 0).params.nreg ∧ (5 : Reg).toNat < (sample 0 0).params.nreg ∧
    (1 : Reg).toNat < (sample 0 0).params.nreg ∧ (0 : Reg) ≠ 5 ∧ (0 : Reg) ≠ 1 ∧ (sample 0 0).val 1 ≠ 0 := by decide

/-- AndWritesIntegerAnd: two values whose AND fits, and the carry-out case at full length (V44-15). -/
theorem witness_AndWritesIntegerAnd :
    (sample 0 0).wf ∧
    Int.land ((sample 0 0).val 5) ((sample 0 0).val 5) ≠ -2 ^ (64 * (sample 0 0).params.maxLimbs) ∧
    Int.land ((sample 0 0).val 5) ((sample 0 0).val 6) = -2 ^ (64 * (sample 0 0).params.maxLimbs) := by decide

/-- The sample with -1 in register 0. -/
def sampleMinusOne : State :=
  { sample 0 0 with regs := (sample 0 0).regs.set 0 { sign := true, limbs := [1], cap := 1 } }

/-- XorWritesIntegerXor: two values whose XOR fits, and the carry-out case at full length. -/
theorem witness_XorWritesIntegerXor :
    (sampleMinusOne).wf ∧ (0 : Reg).toNat < sampleMinusOne.params.nreg ∧ (3 : Reg).toNat < sampleMinusOne.params.nreg ∧
    Int.xor (sampleMinusOne.val 5) (sampleMinusOne.val 6) ≠ -2 ^ (64 * sampleMinusOne.params.maxLimbs) ∧
    Int.xor (sampleMinusOne.val 0) (sampleMinusOne.val 3) = -2 ^ (64 * sampleMinusOne.params.maxLimbs) := by decide

/-- ShlMultipliesByPowerOfTwo: a zero source by the largest amount, the largest amount that fits, and one more. -/
theorem witness_ShlMultipliesByPowerOfTwo :
    (sample 0xFFFFFFFFFFFFFFFF 0).val 0 = 0 ∧
    ((sample 255 0).val 1 ≠ 0 ∧
      (bitlen ((sample 255 0).val 1).natAbs + (sample 255 0).arg0.toNat + 63) / 64 ≤ (sample 255 0).params.maxLimbs) ∧
    ((sample 256 0).val 1 ≠ 0 ∧
      (sample 256 0).params.maxLimbs < (bitlen ((sample 256 0).val 1).natAbs + (sample 256 0).arg0.toNat + 63) / 64) := by
  decide

/-- ShiftLeftThenRightRestores: an SHL that succeeds, on a value that is not 0. -/
theorem witness_ShiftLeftThenRightRestores :
    (sample 255 0).wf ∧ ∃ t, exec (.shl 0 1) (sample 255 0) = .next t ∧ t.err = none := ⟨by decide, _, rfl, by decide⟩

/-- AddWritesSignedSum and SubWritesSignedDifference: results that fit, and results that do not. -/
theorem witness_AddWritesSignedSum :
    (sample 0 0).wf ∧
    limbLen ((sample 0 0).val 3 + (sample 0 0).val 1).natAbs ≤ (sample 0 0).params.maxLimbs ∧
    (sample 0 0).params.maxLimbs < limbLen ((sample 0 0).val 3 + (sample 0 0).val 2).natAbs ∧
    limbLen ((sample 0 0).val 3 - (sample 0 0).val 2).natAbs ≤ (sample 0 0).params.maxLimbs ∧
    (sample 0 0).params.maxLimbs < limbLen ((sample 0 0).val 3 - (sample 0 0).val 1).natAbs := by decide

/-- BadRegisterFieldFails: the first index that is not in the file. -/
theorem witness_BadRegisterFieldFails : (Instr.add 0 0 7).wellFormed (sample 0 0).params.nreg = false := by decide

/-- A word with an unassigned opcode is no command's encoding. -/
theorem witness_illegal_word : ∀ i, encode i ≠ 0x0000000A#32 := by
  intro i h
  have h' := congrArg opField h
  cases i <;> rw [encode, opField_packWord] at h' <;> exact absurd h' (by decide)

/-- IllegalWordsFail: the engine steps on such a word; the two ends of its ranges; a must-be-zero field of each format. -/
theorem witness_IllegalWordsFail :
    { sample 0 0 with pending := some 0x0A }.nextEvent = .engine ∧
    [0x0A, 0x0F, 0x13, 0x1F, 0x24, 0x2F, 0x32, 0x3F, 0x45, 0x4F, 0x57, 0xFF].all (fun op =>
      (0x0A ≤ op ∧ op ≤ 0x0F) ∨ (0x13 ≤ op ∧ op ≤ 0x1F) ∨ (0x24 ≤ op ∧ op ≤ 0x2F) ∨ (0x32 ≤ op ∧ op ≤ 0x3F) ∨
        (0x45 ≤ op ∧ op ≤ 0x4F) ∨ (0x57 ≤ op ∧ op ≤ 0xFF)) = true ∧
    0x00000100#32 &&& 0xFFFFFF00#32 ≠ 0 ∧ 0x00010001#32 &&& 0xFFFF0000#32 ≠ 0 ∧
    0x01000002#32 &&& 0xFF000000#32 ≠ 0 ∧ 0x00000105#32 &&& 0xFF00FF00#32 ≠ 0 ∧
    0x00000112#32 &&& 0x0000FF00#32 ≠ 0 := by decide

/-- ErrorCodesBelongToTheirCommands and FailuresArePrecise: a failing command. -/
theorem witness_FailuresArePrecise :
    (sample 0 0).wf ∧ ∃ t, exec (.div 1 2 0) (sample 0 0) = .next t ∧ t.err = some .divisionByZero :=
  ⟨by decide, _, rfl, by decide⟩

/-- SuccessKeepsErrorRecord and CommandFrame: a successful command; register 4 is none of its destinations. -/
theorem witness_SuccessKeepsErrorRecord :
    ∃ t, exec (.move 1 2) (sample 0 0) = .next t ∧ t.err = none ∧ (4 : Reg) ∉ writtenRegs (.move 1 2) ∧
      writesResult (.move 1 2) = false ∧ writesMulPath (.move 1 2) = false := ⟨_, rfl, by decide⟩

/-- EncodeOfDecode: a word that decodes. -/
theorem witness_EncodeOfDecode : decodeWord 0x03020150#32 = .ok (.add 1 2 3) := by decide

/-- EngineRunsDecodedCommand, both clauses. -/
theorem witness_EngineRunsDecodedCommand :
    { sample 0 0 with pending := some 0x03020150 }.nextEvent = .engine ∧
    decodeWord 0x03020150#32 = .ok (.add 1 2 3) ∧ 0x03020150 < 2 ^ 32 ∧
    decodeWord (BitVec.ofNat 32 0x03020150) = .ok (.add 1 2 3) := by decide

/-- StepKeepsInvariant: a sound state whose step answers a next state. -/
theorem witness_StepKeepsInvariant :
    ∃ s t : State, s.wf ∧ step s = .next t ∧ t ≠ s :=
  ⟨{ sample 9 0 with pending := some 0x00000101 }, _, by decide, rfl, by decide⟩

/-- ResetStateIsSound: legal parameters at their least and greatest values. -/
theorem witness_ResetStateIsSound :
    { nreg := 1, maxLimbs := 1, schoolbookMax := 3, fftThreshold := 3, base := 0 : Params }.legal = true ∧
    { nreg := 256, maxLimbs := 2 ^ 57, schoolbookMax := 65535, fftThreshold := 2 ^ 64 - 1, base := 256 : Params }.legal
      = true := by decide

/-- ResetStepClearsTheBlock: a reset scheduled with a command pending. -/
theorem witness_ResetStepClearsTheBlock :
    { sample 9 9 with pending := some 0, schedule := [.reset, .host] }.schedule = .reset :: [.host] := rfl

/-- PendingCommandCompletesOrIsDiscarded: a command pending behind an access, a host step and a reset. -/
theorem witness_PendingCommandCompletesOrIsDiscarded :
    { sample 0 0 with pending := some 0 }.busy = true ∧
    ∀ e ∈ [Event.access (.read 0x1FF 8), .host, .reset, .engine], e.safe { sample 0 0 with pending := some 0 } := by
  refine ⟨by decide, fun e he => ?_⟩
  simp only [List.mem_cons, List.mem_nil_iff, or_false] at he
  rcases he with rfl | rfl | rfl | rfl <;> simp [Event.safe, sample, State.resetOf, inWindow, Access.addr]

/-- AcceptanceLatchesCommand, IdleOperandWrites, StatusWriteClearsOnlyItsFlags, OtherOffsetsIgnoreWrites,
WindowReadsReturnRegisters and OtherShapesHaveNoEffect: idle states with the access scheduled, at the first and the last
offset of each range; BusyWritesAreDropped: a busy state. -/
theorem witness_window_accesses :
    (∀ a : Access, { sample 0 0 with schedule := [.access a] }.schedule = .access a :: []) ∧
    (sample 0 0).pending = none ∧ { sample 0 0 with pending := some 0 }.pending ≠ none ∧
    (0x18 : Nat) < 0x100 ∧ 0x18 ∉ [0x00, 0x08, 0x10, 0x20] ∧ (0xFF : Nat) < 0x100 ∧ 0xFF ∉ [0x00, 0x08, 0x10, 0x20] ∧
    (7 ≠ 8 ∨ 0x08 % 8 ≠ 0) ∧ (8 ≠ 8 ∨ 0xFF % 8 ≠ 0) := by
  refine ⟨fun _ => rfl, ?_⟩
  decide

/-- ClearAndFailureInBothOrders: the illegal word of `witness_illegal_word` pending, and a write of bit 8. -/
theorem witness_ClearAndFailureInBothOrders :
    { sample 0 0 with pending := some 0x0A }.pending = some 0x0A ∧ (0x100 : Word).getLsbD 8 = true := by decide

/-- PlatformAddressesAreRefused: the last address below the window and the first one above it. -/
theorem witness_PlatformAddressesAreRefused :
    (Access.read 0xFF 8).addr < (sample 0 0).params.base ∧
    (sample 0 0).params.base + 0x100 ≤ (Access.write 0x200 8 1).addr := by decide

/-- A host whose program holds one statement of each kind, a label twice and a `bnz` without its label. -/
def hostAt (pos : Nat) (lastRead : Option Word) : HostSide :=
  { program :=
      [.command (.add 1 2 3), .cmd 0x0A, .arg0 (-1), .arg1 5, .wait, .read .result, .clrflags, .label "l", .bnz "l",
        .label "l", .bnz "m"]
    pos := pos
    lastRead := lastRead }

/-- HostStatementsMakeTheirAccesses: a host step on a statement of each kind. -/
theorem witness_HostStatementsMakeTheirAccesses :
    (∀ pos v, State.nextEvent { sample 0 0 with host := hostAt pos v } = .host) ∧
    [0, 1, 2, 3, 4, 5, 6, 7, 8, 10].map (fun pos => (hostAt pos none).program[pos]?) =
      [some (.command (.add 1 2 3)), some (.cmd 0x0A), some (.arg0 (-1)), some (.arg1 5), some .wait, some (.read .result),
        some .clrflags, some (.label "l"), some (.bnz "l"), some (.bnz "m")] := ⟨fun _ _ => rfl, rfl⟩

/-- HostStatementsMakeTheirAccesses, the clauses of `bnz`: the value 0; the value 1 and a label that stands twice, its first
occurrence at position 7; no value; the value 1 and a label that stands nowhere. -/
theorem witness_HostStatementsMakeTheirAccesses_branch :
    (hostAt 8 (some 0)).lastRead = some 0 ∧ (hostAt 8 (some 1)).lastRead = some 1 ∧ (1 : Word) ≠ 0 ∧
    (hostAt 8 (some 1)).program =
      (hostAt 8 (some 1)).program.take 7 ++ .label "l" :: (hostAt 8 (some 1)).program.drop 8 ∧
    .label "l" ∉ (hostAt 8 (some 1)).program.take 7 ∧ ((hostAt 8 (some 1)).program.take 7).length + 1 = 8 ∧
    (hostAt 8 none).lastRead = none ∧ .label "m" ∉ (hostAt 10 (some 1)).program := by decide

/-- NormalizerGivesCanonicalRecord: a raw record with a zero high limb and sign 1. -/
theorem witness_NormalizerGivesCanonicalRecord :
    (-5 : Int) = (if true then -(mag [5, 0] : Int) else (mag [5, 0] : Int)) := by decide

/-- CanonicalRecordIsUnique: two normalized records of one value. -/
theorem witness_CanonicalRecordIsUnique :
    BigReg.normalized { sign := true, limbs := [5], cap := 1 } ∧ BigReg.normalized { sign := true, limbs := [5], cap := 9 } ∧
    ({ sign := true, limbs := [5], cap := 1 } : BigReg).val = ({ sign := true, limbs := [5], cap := 9 } : BigReg).val := by
  decide

end Sys2Proof.Tests
end

section
/-! PROOFS. The family spec/00_scope.md: the canonical record (R13). -/

namespace Sys2Proof.Machine

/-- R13: the limbs of the canonical record are the 64-bit digits of the absolute value. -/
theorem limbAt_canon_toNat (x : Int) (c j : Nat) :
    (limbAt (canon x c).limbs j).toNat = x.natAbs / 2 ^ (64 * j) % 2 ^ 64 := by
  rw [limbAt_toNat, BigReg.mag_eq_natAbs, val_canon]

/-- R13: a normalized record is determined, up to its capacity, by the integer it denotes. -/
theorem BigReg.sign_limbs_eq_of_val_eq {a b : BigReg} (ha : a.normalized) (hb : b.normalized) (h : a.val = b.val) :
    a.sign = b.sign ∧ a.limbs = b.limbs := by
  constructor
  · rw [BigReg.sign_eq ha, BigReg.sign_eq hb, h]
  · rw [BigReg.limbs_eq_toLimbs ha, BigReg.limbs_eq_toLimbs hb, h]

/-- Settles O60: sign and limbs of a normalized record are functions of its value, and `canon` computes them. -/
theorem canonicalRecordIsUnique : Obligations.CanonicalRecordIsUnique :=
  ⟨fun x c => ⟨val_canon x c, canon_normalized x c, len_canon x c, limbAt_canon_toNat x c⟩,
    fun _ _ => BigReg.sign_limbs_eq_of_val_eq⟩

end Sys2Proof.Machine
end

section
/-! PROOFS. The family spec/10_state.md: what a command's rule can do to the state and what it leaves, the machine's
invariant under every step, the reset state, the fields of `STATUS` and `PARAM`, and the writes to `ARG0`, `ARG1` and
`STATUS`. -/

namespace Sys2Proof.Machine

/-! ### What a command can do -/

/-- Everything that the rule of command `i` can make of the state `s` when it succeeds: nothing, an answer in `RESULT`,
one destination register written, the same with `MULPATH`, or MOVE's two registers. A written record is sound when `s`
is. -/
inductive Effect (s : State) (i : Instr) : State → Prop where
  | unchanged : Effect s i s
  | answers (v : Word) (hres : writesResult i = true) : Effect s i (s.setResult v)
  | writes (d : Reg) (v : BigReg) (hd : d ∈ writtenRegs i) (hv : s.wf → v.wf s.params.maxLimbs) :
      Effect s i (s.setReg d v)
  | multiplies (d : Reg) (v : BigReg) (p : MulPath) (hd : d ∈ writtenRegs i) (hmul : writesMulPath i = true)
      (hv : s.wf → v.wf s.params.maxLimbs) : Effect s i ((s.setReg d v).setMulPath p)
  | moves (rd rs1 : Reg) (hrd : rd ∈ writtenRegs i) (hrs1 : rs1 ∈ writtenRegs i) :
      Effect s i ((s.setReg rd (s.reg rs1)).setReg rs1 BigReg.zero)

/-- A write-back that succeeds has written a canonical record, sound when the state is (R26). -/
theorem State.writeBack_ok {s u : State} {d : Reg} {x : Int} (h : s.writeBack d x = .ok u) :
    ∃ v, u = s.setReg d v ∧ (s.wf → v.wf s.params.maxLimbs) := by
  rcases s.writeBack_cases d x with ⟨hx, heq⟩ | ⟨_, heq⟩ <;> rw [heq] at h
  · exact ⟨_, (Except.ok.inj h).symm, fun hs => canon_wf hx (State.reg_wf hs d).2.2⟩
  · cases h

theorem Effect.of_writeBack {s u : State} {i : Instr} {d : Reg} {x : Int} (hd : d ∈ writtenRegs i)
    (h : s.writeBack d x = .ok u) : Effect s i u := by
  obtain ⟨v, rfl, hv⟩ := State.writeBack_ok h
  exact .writes d v hd hv

theorem Effect.of_multiplyRule {s u : State} {i : Instr} {sel : Params → Nat → MulPath} {rd rs1 rs2 : Reg}
    (hd : rd ∈ writtenRegs i) (hmul : writesMulPath i = true) (h : multiplyRule sel rd rs1 rs2 s = .ok u) :
    Effect s i u := by
  simp only [multiplyRule] at h
  split at h
  · next t hwb =>
    obtain ⟨v, rfl, hv⟩ := State.writeBack_ok hwb
    obtain rfl := Except.ok.inj h
    exact .multiplies rd v _ hd hmul hv
  · cases h

/-- A sound record with its capacity cut to its length is sound: COPY's destination (R102). -/
theorem BigReg.wf_tight {m : Nat} {r : BigReg} (h : r.wf m) : ({ r with cap := r.len } : BigReg).wf m :=
  ⟨h.1, le_refl r.len, le_trans h.2.1 h.2.2⟩

/-- A sound record with its capacity grown within `MAXLIMBS` is sound: RESIZE's destination (R104). -/
theorem BigReg.wf_grown {m n : Nat} {r : BigReg} (h : r.wf m) (hn : n ≤ m) :
    ({ r with cap := max r.cap n } : BigReg).wf m :=
  ⟨h.1, le_trans h.2.1 (le_max_left _ _), max_le h.2.2 hn⟩

/-- Every command is one rule under the shared completion, and a rule that succeeds has one of the effects above. -/
theorem exec_rule_effect (i : Instr) (s : State) :
    ∃ rule : Rule, exec i s = s.command i rule ∧ ∀ u, rule s = .ok u → Effect s i u := by
  cases i <;>
    dsimp only [exec, execNop, execLdi, execCopy, execMove, execResize, execRdlimb, execWrlimb, execLen, execCap,
      execBitlen, execAddm, execSubm, execCmpm, execMul, execMuls, execMulk, execMulf, execDiv, execMod, execAnd, execOr,
      execXor, execShl, execShr, execAdd, execSub, execNeg, execAbs, execCmp, execIszero, execIsneg] <;>
    refine ⟨_, rfl, fun u h => ?_⟩
  case nop => exact Except.ok.inj h ▸ .unchanged
  case copy rd rs1 =>
    exact Except.ok.inj h ▸ .writes rd _ (.head _) fun hs => BigReg.wf_tight (State.reg_wf hs rs1)
  case move rd rs1 =>
    obtain rfl := Except.ok.inj h
    split
    · exact .unchanged
    · exact .moves rd rs1 (.head _) (.tail _ (.head _))
  case resize rd =>
    split at h
    · cases h
    · next hn =>
      exact Except.ok.inj h ▸ .writes rd _ (.head _) fun hs => BigReg.wf_grown (State.reg_wf hs rd) (not_lt.1 hn)
  case rdlimb | len | cap | bitlen | cmpm | cmp | iszero | isneg => exact Except.ok.inj h ▸ .answers _ rfl
  case mul | muls | mulk | mulf => exact .of_multiplyRule (.head _) rfl h
  case wrlimb | subm =>
    split at h
    · cases h
    · exact .of_writeBack (.head _) h
  case div | mod =>
    split at h
    · exact .of_writeBack (.head _) h
    · cases h
  case shl =>
    split at h
    · exact .of_writeBack (.head _) h
    · split at h
      · cases h
      · exact .of_writeBack (.head _) h
  case ldi | addm | and | or | xor | shr | add | sub | neg | abs => exact .of_writeBack (.head _) h

/-- Everything that a command can end in (R223, R224): a failing completion, or its effect and the successful one. -/
theorem exec_cases {i : Instr} {s t : State} (h : exec i s = .next t) :
    (∃ e, t = s.fail e (encode i)) ∨ ∃ u, Effect s i u ∧ t = u.complete := by
  obtain ⟨rule, hexec, heff⟩ := exec_rule_effect i s
  rw [hexec] at h
  rcases s.command_cases i rule with ⟨_, u, hu, hc⟩ | ⟨_, e, _, hc⟩ | ⟨_, hc⟩ <;>
    obtain rfl := Host.Outcome.next.inj (hc.symm.trans h)
  · exact .inr ⟨u, heff u hu, rfl⟩
  · exact .inl ⟨e, rfl⟩
  · exact .inl ⟨_, rfl⟩

/-! ### The frame of a command -/

/-- R25, R28: the fields that no rule writes, and the size of the register file. -/
theorem Effect.keeps {s u : State} {i : Instr} (h : Effect s i u) :
    u.params = s.params ∧ u.arg0 = s.arg0 ∧ u.arg1 = s.arg1 ∧ u.cmdLost = s.cmdLost ∧ u.host = s.host ∧
      u.schedule = s.schedule ∧ u.readLog = s.readLog ∧ u.regs.length = s.regs.length := by
  cases h <;> simp

/-- R25: a register that the command does not write reads as before. -/
theorem Effect.reg_eq {s u : State} {i : Instr} (h : Effect s i u) {r : Reg} (hr : r ∉ writtenRegs i) :
    u.reg r = s.reg r := by
  have ne_of_written : ∀ {d}, d ∈ writtenRegs i → r ≠ d := fun hd he => hr (he ▸ hd)
  cases h with
  | unchanged => rfl
  | answers v => exact State.reg_congr rfl r
  | writes d v hd => exact State.reg_setReg_ne s d r v (ne_of_written hd)
  | multiplies d v p hd => exact State.reg_setReg_ne s d r v (ne_of_written hd)
  | moves rd rs1 hrd hrs1 =>
    rw [State.reg_setReg_ne _ _ _ _ (ne_of_written hrs1), State.reg_setReg_ne _ _ _ _ (ne_of_written hrd)]

/-- R28: only a scalar command writes `RESULT`. -/
theorem Effect.result_eq {s u : State} {i : Instr} (h : Effect s i u) (hi : writesResult i = false) :
    u.result = s.result := by
  cases h with
  | answers v hres => exact absurd hres (by simp [hi])
  | unchanged | writes | multiplies | moves => rfl

/-- R36, R141: only a multiply writes `MULPATH`. -/
theorem Effect.mulPath_eq {s u : State} {i : Instr} (h : Effect s i u) (hi : writesMulPath i = false) :
    u.mulPath = s.mulPath := by
  cases h with
  | multiplies d v p hd hmul => exact absurd hmul (by simp [hi])
  | unchanged | answers | writes | moves => rfl

/-- Settles O37: a failing completion writes none of these fields, and a successful one keeps what its effect left. -/
theorem commandFrame : Obligations.CommandFrame := by
  intro s t i h
  have limbRead_eq : ∀ {t : State} {r : Reg}, t.reg r = s.reg r → ∀ j, t.limbRead r j = s.limbRead r j := by
    intro t r hr j
    rw [State.limbRead, hr, State.limbRead]
  rcases exec_cases h with ⟨e, rfl⟩ | ⟨u, hu, rfl⟩
  · exact ⟨rfl, rfl, rfl, rfl, rfl, rfl, rfl, rfl, fun _ _ => ⟨rfl, fun _ => rfl⟩, fun _ => rfl, fun _ => rfl⟩
  · obtain ⟨hparams, harg0, harg1, hlost, hhost, hsched, hlog, hlen⟩ := hu.keeps
    exact ⟨hparams, harg0, harg1, hlost, hhost, hsched, hlog, hlen,
      fun _ hr => ⟨hu.reg_eq hr, limbRead_eq (hu.reg_eq hr)⟩, hu.result_eq, hu.mulPath_eq⟩

/-! ### The invariant -/

/-- A rule that succeeds keeps every register sound (R20 to R23). -/
theorem Effect.wf {s u : State} {i : Instr} (h : Effect s i u) (hs : s.wf) : u.wf := by
  cases h with
  | unchanged => exact hs
  | answers v => exact hs
  | writes d v _ hv => exact State.setReg_wf hs d (hv hs)
  | multiplies d v p _ _ hv => exact State.setReg_wf hs d (hv hs)
  | moves rd rs1 => exact State.setReg_wf (State.setReg_wf hs rd (State.reg_wf hs rs1)) rs1 (zero_wf _)

theorem exec_wf {i : Instr} {s t : State} (hs : s.wf) (h : exec i s = .next t) : t.wf := by
  rcases exec_cases h with ⟨e, rfl⟩ | ⟨u, hu, rfl⟩
  · exact State.fail_wf hs e _
  · exact State.complete_wf (hu.wf hs)

theorem engineStep_wf {s t : State} (hs : s.wf) (h : engineStep s = .next t) : t.wf := by
  unfold engineStep at h
  split at h
  · exact Host.Outcome.next.inj h ▸ hs
  · split at h
    · exact exec_wf hs h
    · exact Host.Outcome.next.inj h ▸ State.fail_wf hs _ _

/-- R37: the reset values are sound, whatever the legal parameters. -/
theorem State.resetOf_wf {p : Params} (hp : p.legal = true) : (State.resetOf p).wf := by
  refine ⟨hp, List.length_replicate, fun r hr => ?_, Nat.two_pow_pos 32⟩
  rw [List.eq_of_mem_replicate hr]
  exact zero_wf _

theorem State.assertReset_wf {s : State} (hs : s.wf) : s.assertReset.wf := State.resetOf_wf hs.1

/-- The window has no way to the registers, the parameters or `ERRCMD`: a write to it keeps the invariant. -/
theorem State.windowWrite_wf {s : State} (hs : s.wf) (r : WindowReg) (v : Word) : (s.windowWrite r v).wf := by
  cases r with
  | cmd | arg0 | arg1 => dsimp only [State.windowWrite]; split <;> exact hs
  | status | result | param | maxLimbs | fftThreshold | errCmd => exact hs

theorem State.memWrite_wf {s : State} (hs : s.wf) (addr width : Nat) (v : Word) : (s.memWrite addr width v).wf := by
  unfold State.memWrite
  split
  · exact State.windowWrite_wf hs _ v
  · exact hs

theorem accessStep_wf {a : Access} {s t : State} (hs : s.wf) (h : accessStep a s = .next t) : t.wf := by
  unfold accessStep at h
  split at h
  · obtain rfl := Host.Outcome.next.inj h
    cases a with
    | read addr width => exact hs
    | write addr width v => exact State.memWrite_wf hs addr width v
  · cases h

theorem State.hostWrite_wf {s : State} (hs : s.wf) (r : WindowReg) (v : Word) : (s.hostWrite r v).wf :=
  State.memWrite_wf hs _ _ v

theorem State.hostPoll_wf {s : State} (hs : s.wf) : s.hostPoll.wf := by
  dsimp only [State.hostPoll]
  split <;> exact hs

theorem hostBranch_wf {name : String} {s t : State} (hs : s.wf) (h : hostBranch name s = .next t) : t.wf := by
  unfold hostBranch at h
  split at h
  · cases h
  · split at h
    · exact Host.Outcome.next.inj h ▸ hs
    · split at h
      · exact Host.Outcome.next.inj h ▸ hs
      · cases h

theorem hostStatement_wf {st : HostStmt} {s t : State} (hs : s.wf) (h : hostStatement st s = .next t) : t.wf := by
  cases st with
  | command | cmd | arg0 | arg1 | clrflags => exact Host.Outcome.next.inj h ▸ State.hostWrite_wf hs _ _
  | wait => exact Host.Outcome.next.inj h ▸ State.hostPoll_wf hs
  | read | label => exact Host.Outcome.next.inj h ▸ hs
  | bnz name => exact hostBranch_wf hs h

theorem hostStep_wf {s t : State} (hs : s.wf) (h : hostStep s = .next t) : t.wf := by
  unfold hostStep at h
  split at h
  · exact hostStatement_wf hs h
  · exact Host.Outcome.next.inj h ▸ hs

theorem agentStep_wf {e : Event} {s t : State} (hs : s.wf) (h : agentStep e s = .next t) : t.wf := by
  cases e with
  | host => exact hostStep_wf hs h
  | access a => exact accessStep_wf hs h
  | engine => exact engineStep_wf hs h
  | reset => exact Host.Outcome.next.inj h ▸ State.assertReset_wf hs

/-- Settles O42: taking the schedule's entry touches no field of the invariant, and each agent's step keeps it. -/
theorem stepKeepsInvariant : Obligations.StepKeepsInvariant := by
  intro s t hs h
  have hpop : s.popEvent.wf := hs
  exact agentStep_wf hpop h

/-! ### The reset state -/

/-- Settles O43: `State.reset` is the reset state of the reference parameters, which are legal. -/
theorem resetStateIsSound : Obligations.ResetStateIsSound :=
  ⟨State.resetOf_wf (by decide), fun _ => State.resetOf_wf⟩

/-- R37: every register reads as the zero value after reset, also one outside the file. -/
theorem State.reg_resetOf (p : Params) (r : Reg) : (State.resetOf p).reg r = BigReg.zero := by
  rw [State.reg, List.getD]
  rcases hr : (State.resetOf p).regs[r.toNat]? with _ | v
  · rfl
  · exact List.eq_of_mem_replicate (List.mem_of_getElem? hr)

/-- R37: `STATUS` is 0 after reset; no field of it depends on the parameters. -/
theorem State.statusWord_resetOf (p : Params) : (State.resetOf p).statusWord = 0 := by
  change State.reset.statusWord = 0
  decide

/-- Settles O44: the register file and `STATUS` by the two lemmas above, the other fields as `resetOf` sets them. -/
theorem resetStateValues : Obligations.ResetStateValues := fun p =>
  ⟨State.reg_resetOf p, List.length_replicate, rfl, rfl, rfl, State.statusWord_resetOf p, rfl, rfl, rfl⟩

/-! ### Writes to the window -/

/-- A scheduled 64-bit write to a named register is that register's write, on the state whose entry is taken (R54,
R59). -/
theorem step_write_named {s : State} {v : Word} {rest : List Event} (r : WindowReg)
    (h : s.schedule = .access (.write (s.params.base + r.offset) 8 v) :: rest) :
    step s = .next ({ s with schedule := rest }.windowWrite r v) := by
  rw [step_access h (inWindow_offset s.params r.offset r.offset_lt)]
  simp only [State.windowAccess, State.memWrite, reached_named]

/-- Settles O49: an idle block drops no write (R53). -/
theorem idleOperandWrites : Obligations.IdleOperandWrites := by
  intro s v rest hidle
  have hbusy : ({ s with schedule := rest } : State).busy = false := by simp [State.busy, hidle]
  constructor
  · intro h
    rw [step_write_named .arg0 h]
    simp only [State.windowWrite, hbusy, Bool.false_eq_true, if_false]
  · intro h
    rw [step_write_named .arg1 h]
    simp only [State.windowWrite, hbusy, Bool.false_eq_true, if_false]

/-- Settles O50: the write-one-to-clear mask of each flag, read as a case on its bit. -/
theorem statusWriteClearsOnlyItsFlags : Obligations.StatusWriteClearsOnlyItsFlags := by
  intro s v rest h
  have clear : ∀ flag bit : Bool, (flag && !bit) = if bit then false else flag := by decide
  rw [step_write_named .status h]
  simp only [State.windowWrite, State.clearFlags, clear]

/-! ### The fields of `STATUS` and `PARAM` -/

/-- R29: the fields that `STATUS` is put together from, each read back from its place. -/
theorem State.statusWord_fields (s : State) :
    s.statusWord.extractLsb' 0 1 = BitVec.ofBool s.busy ∧ s.statusWord.extractLsb' 1 3 = 0#3 ∧
      s.statusWord.extractLsb' 4 4 = errNumber s.err ∧ s.statusWord.extractLsb' 8 1 = BitVec.ofBool s.stickyErr ∧
      s.statusWord.extractLsb' 9 1 = BitVec.ofBool s.cmdLost ∧ s.statusWord.extractLsb' 10 2 = 0#2 ∧
      s.statusWord.extractLsb' 12 2 = mulPathNumber s.mulPath ∧ s.statusWord.extractLsb' 14 50 = 0#50 := by
  unfold State.statusWord
  simp (disch := decide) only [BitVec.extractLsb'_append_eq_of_le, BitVec.extractLsb'_append_eq_of_add_le,
    Nat.reduceSub, BitVec.extractLsb'_eq_self, and_self]

/-- A flag that stands in a one-bit field is that bit of the word. -/
theorem getLsbD_eq_flag {w i : Nat} {x : BitVec w} {b : Bool} (h : x.extractLsb' i 1 = BitVec.ofBool b) :
    x.getLsbD i = b := by
  rw [BitVec.getLsbD_eq_extractLsb', h]
  cases b <;> rfl

/-- Settles O54: the fields as they are put together, with the numbers of R220 and R29 for `ERR` and `MULPATH`. -/
theorem statusWordFields : Obligations.StatusWordFields := by
  intro s
  obtain ⟨hbusy, hlow, herr, hsticky, hlost, hmid, hpath, hhigh⟩ := s.statusWord_fields
  refine ⟨getLsbD_eq_flag hbusy, hlow, herr.trans ?_, getLsbD_eq_flag hsticky, getLsbD_eq_flag hlost, hmid,
    hpath.trans ?_, hhigh⟩
  · cases s.err with
    | none => rfl
    | some e => cases e <;> rfl
  · cases s.mulPath <;> rfl

/-- Settles O55: the fields are digits of `PARAM` as a number, and legal parameters fit their fields. -/
theorem paramWordFields : Obligations.ParamWordFields := by
  intro s hlegal
  have hnum := s.paramWord_toNat
  simp only [Params.legal, Bool.and_eq_true, decide_eq_true_eq] at hlegal
  obtain ⟨⟨⟨⟨⟨_, hnreg⟩, _, hmax⟩, _, hschool⟩, _, hfft⟩, _⟩ := hlegal
  refine ⟨?_, ?_, BitVec.eq_of_toNat_eq ?_, BitVec.eq_of_toNat_eq ?_, ?_, ?_⟩
  · rw [BitVec.extractLsb'_toNat, hnum]; omega
  · rw [BitVec.extractLsb'_toNat, hnum, Nat.shiftRight_eq_div_pow]; omega
  · rw [BitVec.extractLsb'_toNat, hnum, Nat.shiftRight_eq_div_pow, BitVec.toNat_ofNat]; omega
  · rw [BitVec.extractLsb'_toNat, hnum, Nat.shiftRight_eq_div_pow, BitVec.toNat_ofNat]; omega
  · exact Nat.mod_eq_of_lt (by omega)
  · exact Nat.mod_eq_of_lt (by omega)

end Sys2Proof.Machine
end

section
/-! PROOFS. The family spec/20_memory.md: accesses to the window by their shape and offset, the completion of a pending
command, and the platform's addresses. -/

namespace Sys2Proof.Machine

/-! ### Completion -/

/-- R223, R224: both completions clear the pending command. -/
theorem exec_completes (i : Instr) (s : State) : ∃ t, exec i s = .next t ∧ t.pending = none := by
  obtain ⟨rule, hexec⟩ := exec_is_command i s
  rw [hexec]
  rcases s.command_cases i rule with ⟨_, u, _, hc⟩ | ⟨_, e, _, hc⟩ | ⟨_, hc⟩
  · exact ⟨u.complete, hc, State.complete_pending u⟩
  · exact ⟨_, hc, State.fail_pending s e _⟩
  · exact ⟨_, hc, State.fail_pending s .badRegister _⟩

/-- Settles O34: every command is one rule under the shared completion, whose three ends all clear `BUSY`. -/
theorem everyCommandCompletes : Obligations.EveryCommandCompletes := fun s i => exec_completes i s

/-- R52: after an engine step no command is pending, whether the pending word decoded or not. -/
theorem engineStep_completes (s : State) : ∃ t, engineStep s = .next t ∧ t.pending = none := by
  unfold engineStep
  split
  · next hidle => exact ⟨s, rfl, hidle⟩
  · next w _ =>
    split
    · next i _ => exact exec_completes i s
    · exact ⟨_, rfl, State.fail_pending s .illegalCommand w⟩

/-- Settles O41: the engine's step on a decoding word, and the word that `withFetchWord` places. -/
theorem engineRunsDecodedCommand : Obligations.EngineRunsDecodedCommand := by
  refine ⟨fun s w i => step_engine_ok, fun s w i hw hdec => ?_⟩
  have hword : commandOfWrite (BitVec.ofNat 64 (w % 2 ^ 32)) = BitVec.ofNat 32 w := by
    rw [commandOfWrite, Nat.mod_eq_of_lt hw, BitVec.setWidth_ofNat_of_le (by decide)]
  have hpend : (s.withFetchWord 32 w).pending = some (BitVec.ofNat 32 w) := congrArg some hword
  rw [step_engine_ok rfl hpend hdec, ← hpend]
  rfl

/-! ### What the events of a schedule leave in place -/

/-- The safety of an event reads the parameters and the host's program only. -/
theorem Event.safe_congr {s t : State} {e : Event} (hparams : t.params = s.params)
    (hprogram : t.host.program = s.host.program) (h : e.safe s) : e.safe t := by
  cases e with
  | engine | reset => trivial
  | access a => simpa only [Event.safe, hparams] using h
  | host => simpa only [Event.safe, hprogram] using h

/-- What decides which events come next and whether they are safe: the parameters, the host's program and the
schedule. -/
structure SamePlan (s t : State) : Prop where
  params : t.params = s.params
  program : t.host.program = s.host.program
  schedule : t.schedule = s.schedule

theorem State.windowWrite_samePlan (s : State) (r : WindowReg) (v : Word) : SamePlan s (s.windowWrite r v) := by
  cases r with
  | cmd | arg0 | arg1 => dsimp only [State.windowWrite]; split <;> exact ⟨rfl, rfl, rfl⟩
  | status | result | param | maxLimbs | fftThreshold | errCmd => exact ⟨rfl, rfl, rfl⟩

theorem State.memWrite_samePlan (s : State) (addr width : Nat) (v : Word) : SamePlan s (s.memWrite addr width v) := by
  unfold State.memWrite
  split
  · exact s.windowWrite_samePlan _ v
  · exact ⟨rfl, rfl, rfl⟩

theorem State.windowAccess_samePlan (s : State) (a : Access) : SamePlan s (s.windowAccess a) := by
  cases a with
  | read addr width => exact ⟨rfl, rfl, rfl⟩
  | write addr width v => exact s.memWrite_samePlan addr width v

theorem State.hostWrite_samePlan (s : State) (r : WindowReg) (v : Word) : SamePlan s (s.hostWrite r v) := by
  obtain ⟨hparams, hprogram, hschedule⟩ := s.memWrite_samePlan (s.params.base + r.offset) 8 v
  exact ⟨hparams, hprogram, hschedule⟩

theorem State.hostPoll_samePlan (s : State) : SamePlan s s.hostPoll := by
  dsimp only [State.hostPoll]
  split <;> exact ⟨rfl, rfl, rfl⟩

/-- R88: every statement but `bnz` answers a next state. -/
theorem hostStatement_samePlan {st : HostStmt} (s : State) (hst : ∀ name, st ≠ .bnz name) :
    ∃ t, hostStatement st s = .next t ∧ SamePlan s t := by
  cases st with
  | command | cmd | arg0 | arg1 | clrflags => exact ⟨_, rfl, s.hostWrite_samePlan _ _⟩
  | wait => exact ⟨_, rfl, s.hostPoll_samePlan⟩
  | read | label => exact ⟨_, rfl, rfl, rfl, rfl⟩
  | bnz name => exact absurd rfl (hst name)

theorem hostStep_samePlan {s : State} (h : Event.safe s .host) : ∃ t, hostStep s = .next t ∧ SamePlan s t := by
  unfold hostStep
  split
  · next hst => exact hostStatement_samePlan s (h _ (List.mem_of_getElem? hst))
  · exact ⟨s, rfl, rfl, rfl, rfl⟩

/-- A safe event answers a next state; it leaves no command pending, or it keeps the plan (R52, R59, R251). -/
theorem agentStep_safe {s : State} {e : Event} (h : e.safe s) :
    ∃ t, agentStep e s = .next t ∧ (t.pending = none ∨ SamePlan s t) := by
  cases e with
  | engine =>
    obtain ⟨t, ht, hidle⟩ := engineStep_completes s
    exact ⟨t, ht, .inl hidle⟩
  | reset => exact ⟨s.assertReset, rfl, .inl rfl⟩
  | access a => exact ⟨s.windowAccess a, if_pos h, .inr (s.windowAccess_samePlan a)⟩
  | host =>
    obtain ⟨t, ht, hplan⟩ := hostStep_samePlan h
    exact ⟨t, ht, .inr hplan⟩

/-- A step is the scheduled agent's, on the state whose entry is taken (R62). -/
theorem step_scheduled {s : State} {e : Event} {rest : List Event} (h : s.schedule = e :: rest) :
    step s = agentStep e s.popEvent := by
  simp only [step, State.nextEvent, h]

/-- With nothing scheduled the engine completes the pending command (R52). -/
theorem step_busy_unscheduled {s : State} (h : s.schedule = []) (hbusy : s.busy = true) :
    step s = engineStep s.popEvent := by
  simp only [step, State.nextEvent, h, hbusy, if_true, agentStep]

/-- Settles O46, by induction on the schedule: its first event ends the wait or leaves the rest of the plan, and at its
end the engine steps (R52). -/
theorem pendingCommandCompletesOrIsDiscarded : Obligations.PendingCommandCompletesOrIsDiscarded := by
  intro s
  induction hsched : s.schedule generalizing s with
  | nil =>
    intro hbusy _
    obtain ⟨t, ht, hidle⟩ := engineStep_completes s.popEvent
    exact ⟨1, t, le_refl 1, core_run_succ ((step_busy_unscheduled hsched hbusy).trans ht) 0, hidle⟩
  | cons e rest ih =>
    intro _ hsafe
    obtain ⟨t, ht, hnext⟩ := agentStep_safe (Event.safe_congr (t := s.popEvent) rfl rfl (hsafe e (.head _)))
    have hstep : step s = .next t := (step_scheduled hsched).trans ht
    by_cases hidle : t.pending = none
    · exact ⟨1, t, Nat.le_add_left 1 _, core_run_succ hstep 0, hidle⟩
    · obtain ⟨hparams, hprogram, hschedule⟩ := hnext.resolve_left hidle
      have hrest : t.schedule = rest := by rw [hschedule, State.popEvent_schedule, hsched, List.tail_cons]
      have hbusy : t.busy = true := Option.isSome_iff_ne_none.2 hidle
      obtain ⟨k, u, hk, hrun, hu⟩ :=
        ih t hrest hbusy fun e' he' => Event.safe_congr hparams hprogram (hsafe e' (.tail _ he'))
      exact ⟨k + 1, u, Nat.succ_le_succ hk, (core_run_succ hstep k).trans hrun, hu⟩

/-! ### Accesses to the window -/

/-- A scheduled read within the window, of any width, records what it returns (R59). -/
theorem step_read {s : State} {offset width : Nat} {rest : List Event} (ho : offset < 256)
    (h : s.schedule = .access (.read (s.params.base + offset) width) :: rest) :
    step s = .next { s with readLog := s.memReadValue (s.params.base + offset) width :: s.readLog, schedule := rest } :=
  step_access h (inWindow_offset s.params offset ho)

/-- A scheduled write within the window, of any width, is `MemWrite` on the state whose entry is taken (R59). -/
theorem step_write {s : State} {offset width : Nat} {v : Word} {rest : List Event} (ho : offset < 256)
    (h : s.schedule = .access (.write (s.params.base + offset) width v) :: rest) :
    step s = .next ({ s with schedule := rest }.memWrite (s.params.base + offset) width v) :=
  step_access h (inWindow_offset s.params offset ho)

/-- R55: an access of another shape reaches no register; every named offset is 8-byte aligned. -/
theorem reached_otherShape (p : Params) {offset width : Nat} (ho : offset < 256) (h : width ≠ 8 ∨ offset % 8 ≠ 0) :
    reached p (p.base + offset) width = none := by
  by_cases hw : width = 8
  · subst hw
    have hmis : offset % 8 ≠ 0 := h.resolve_left fun hne => hne rfl
    rw [reached_offset p offset ho, windowRegAt_eq_none]
    rintro r rfl
    exact hmis (by cases r <;> rfl)
  · rw [reached, if_neg fun hc => hw hc.1]

/-- Settles O53: an access that reaches no register writes nothing and reads 0. -/
theorem otherShapesHaveNoEffect : Obligations.OtherShapesHaveNoEffect := by
  intro s offset width v rest ho hshape
  have hnone := reached_otherShape s.params ho hshape
  constructor <;> intro h
  · rw [step_write ho h]
    simp only [State.memWrite, hnone]
  · rw [step_read ho h]
    simp only [State.memReadValue, hnone]

/-- Settles O52: at a named offset its register's value, at every other offset 0. -/
theorem windowReadsReturnRegisters : Obligations.WindowReadsReturnRegisters := by
  intro s offset rest ho h
  refine ⟨_, step_read ho h, ?_⟩
  rw [State.memReadValue, reached_offset s.params offset ho]
  cases hreg : windowRegAt offset with
  | some r =>
    obtain rfl := (windowRegAt_eq_some offset r).1 hreg
    cases r <;> rfl
  | none =>
    have hne := (windowRegAt_eq_none offset).1 hreg
    symm
    exact (if_neg (hne .arg0)).trans <| (if_neg (hne .arg1)).trans <| (if_neg (hne .result)).trans <|
      (if_neg (hne .status)).trans <| (if_neg (hne .param)).trans <| (if_neg (hne .maxLimbs)).trans <|
      (if_neg (hne .fftThreshold)).trans <| if_neg (hne .errCmd)

/-- R54: a write to a read-only register changes nothing. -/
theorem State.windowWrite_readOnly (s : State) {r : WindowReg} (v : Word)
    (h : r.offset ∉ [0x00, 0x08, 0x10, 0x20]) : s.windowWrite r v = s := by
  cases r with
  | result | param | maxLimbs | fftThreshold | errCmd => rfl
  | cmd | arg0 | arg1 | status => exact absurd (by decide) h

/-- Settles O51: the write reaches a read-only register or none. -/
theorem otherOffsetsIgnoreWrites : Obligations.OtherOffsetsIgnoreWrites := by
  intro s v offset rest ho hother h
  rw [step_write ho h]
  simp only [State.memWrite, reached_offset s.params offset ho]
  cases hreg : windowRegAt offset with
  | some r =>
    obtain rfl := (windowRegAt_eq_some offset r).1 hreg
    exact congrArg _ (State.windowWrite_readOnly _ v hother)
  | none => rfl

/-- Settles O47: an idle block accepts the write to `CMD`. -/
theorem acceptanceLatchesCommand : Obligations.AcceptanceLatchesCommand := by
  intro s v rest h hidle
  have hbusy : ({ s with schedule := rest } : State).busy = false := by simp [State.busy, hidle]
  rw [step_write_named .cmd h]
  simp only [State.windowWrite, hbusy, Bool.false_eq_true, if_false, State.accept, commandOfWrite]

/-- R53: while busy, a write to `CMD`, `ARG0` or `ARG1` is dropped. -/
theorem State.windowWrite_busy {s : State} {r : WindowReg} (v : Word) (hr : r = .cmd ∨ r = .arg0 ∨ r = .arg1)
    (hbusy : s.busy = true) : s.windowWrite r v = s.dropWrite := by
  rcases hr with rfl | rfl | rfl <;> exact if_pos hbusy

/-- Settles O48: a busy block drops the write to each of the three registers. -/
theorem busyWritesAreDropped : Obligations.BusyWritesAreDropped := by
  intro s v offset rest hoffset h hpend
  have hbusy : ({ s with schedule := rest } : State).busy = true := Option.isSome_iff_ne_none.2 hpend
  have dropped : ∀ r : WindowReg, r = .cmd ∨ r = .arg0 ∨ r = .arg1 →
      s.schedule = .access (.write (s.params.base + r.offset) 8 v) :: rest →
      step s = .next { s with cmdLost := true, schedule := rest } := by
    intro r hr h
    rw [step_write_named r h, State.windowWrite_busy v hr hbusy]
    rfl
  rcases hoffset with rfl | rfl | rfl
  · exact dropped .cmd (.inl rfl) h
  · exact dropped .arg0 (.inr (.inl rfl)) h
  · exact dropped .arg1 (.inr (.inr rfl)) h

/-- Settles O57: an address below `BASE` or above `BASE + 0xFF` is not in the window. -/
theorem platformAddressesAreRefused : Obligations.PlatformAddressesAreRefused := by
  intro s a rest h hout
  have hin : inWindow s.params a.addr = false := by
    simp only [inWindow, Bool.and_eq_false_iff, decide_eq_false_iff_not]
    omega
  rw [step_scheduled h]
  simp only [agentStep, accessStep, State.popEvent_params, hin, Bool.false_eq_true, if_false]

end Sys2Proof.Machine
end

section
/-! PROOFS. The family spec/30_encoding.md: the decoder and the encoder as inverses, the words that are no command's
encoding, and the statements of the host assembly. -/

namespace Sys2Proof

/-! ### The formats (R81, R84) -/

/-- What each format shares: the check under its mask passes exactly when packing its used fields gives the word back. -/
theorem underMask_eq_ok {mask w p : CmdWord} {i j : Instr} (hpack : w &&& mask = (opField w).setWidth 32 → p = w)
    (hmask : p &&& mask = (opField w).setWidth 32) : underMask mask w i = .ok j ↔ i = j ∧ p = w := by
  unfold underMask
  split
  · next h => simp only [Except.ok.injEq, hpack h, and_true]
  · next h =>
    have hne : p ≠ w := fun hp => h (hp ▸ hmask)
    simp only [reduceCtorEq, hne, and_false]

section
variable {w : CmdWord} {i j : Instr}

@[simp] theorem formatN_eq_ok : formatN w i = .ok j ↔ i = j ∧ packWord (opField w) 0 0 0 = w :=
  underMask_eq_ok packWord_of_and_N (packWord_and_N _)

@[simp] theorem formatD_eq_ok {f : Reg → Instr} :
    formatD w f = .ok j ↔ f (rdField w) = j ∧ packWord (opField w) (rdField w) 0 0 = w :=
  underMask_eq_ok packWord_of_and_D (packWord_and_D _ _)

@[simp] theorem formatDS_eq_ok {f : Reg → Reg → Instr} :
    formatDS w f = .ok j ↔ f (rdField w) (rs1Field w) = j ∧ packWord (opField w) (rdField w) (rs1Field w) 0 = w :=
  underMask_eq_ok packWord_of_and_DS (packWord_and_DS _ _ _)

@[simp] theorem formatDST_eq_ok {f : Reg → Reg → Reg → Instr} :
    formatDST w f = .ok j ↔ f (rdField w) (rs1Field w) (rs2Field w) = j ∧
      packWord (opField w) (rdField w) (rs1Field w) (rs2Field w) = w :=
  underMask_eq_ok packWord_of_and_DST (packWord_and_DST _ _ _ _)

@[simp] theorem formatS_eq_ok {f : Reg → Instr} :
    formatS w f = .ok j ↔ f (rs1Field w) = j ∧ packWord (opField w) 0 (rs1Field w) 0 = w :=
  underMask_eq_ok packWord_of_and_S (packWord_and_S _ _)

@[simp] theorem formatSS_eq_ok {f : Reg → Reg → Instr} :
    formatSS w f = .ok j ↔ f (rs1Field w) (rs2Field w) = j ∧ packWord (opField w) 0 (rs1Field w) (rs2Field w) = w :=
  underMask_eq_ok packWord_of_and_SS (packWord_and_SS _ _ _)

/-- A word put together from its fields is put together from its opcode's number. -/
theorem packWord_opcode {n : Nat} {rd rs1 rs2 : Reg} (hop : (opField w).toNat = n)
    (hw : packWord (opField w) rd rs1 rs2 = w) : packWord (BitVec.ofNat 8 n) rd rs1 rs2 = w := by
  rw [← hop, BitVec.ofNat_toNat, BitVec.setWidth_eq, hw]

/-- R84: the bits above the opcode that a format's check covers are 0 in every word that passes it. -/
theorem and_eq_zero_of_underMask {mask : CmdWord} (h : underMask mask w i = .ok j) :
    w &&& (mask &&& 0xFFFFFF00#32) = 0 := by
  have hmask : w &&& mask = (opField w).setWidth 32 := by
    by_contra hne
    rw [underMask, if_neg hne] at h
    cases h
  rw [← BitVec.and_assoc, hmask]
  ext k hk
  interval_cases k <;> simp

end

/-! ### Decoder and encoder -/

/-- Settles O38: each command's opcode selects its own row, whose format finds the fields that were packed. -/
theorem decodeOfEncode : Obligations.DecodeOfEncode := by
  intro i
  cases i <;> simp [encode, decodeWord]

/-- Settles O39: in each row of the opcode map the format's check passes only for the packed word. -/
theorem encodeOfDecode : Obligations.EncodeOfDecode := by
  intro w i h
  unfold decodeWord at h
  split at h
  case h_32 => cases h -- an unassigned opcode
  all_goals
    rename_i hop
    simp only [formatN_eq_ok, formatD_eq_ok, formatDS_eq_ok, formatDST_eq_ok, formatS_eq_ok, formatSS_eq_ok] at h
    obtain ⟨rfl, hw⟩ := h
    exact packWord_opcode hop hw

/-- R86: a word that is no command's encoding does not decode. -/
theorem decodeWord_error {w : CmdWord} (h : ∀ i, encode i ≠ w) : ∃ e, decodeWord w = .error e := by
  cases hd : decodeWord w with
  | error e => exact ⟨e, rfl⟩
  | ok i => exact absurd (encodeOfDecode w i hd) (h i)

/-- R80: the four fields of a word are its base-256 digits. -/
theorem toNat_eq_fields (w : CmdWord) :
    w.toNat = (opField w).toNat + (rdField w).toNat * 2 ^ 8 + (rs1Field w).toNat * 2 ^ 16 +
      (rs2Field w).toNat * 2 ^ 24 := by
  have hw := w.isLt
  simp only [opField, rdField, rs1Field, rs2Field, BitVec.extractLsb'_toNat, Nat.shiftRight_eq_div_pow]
  omega

/-- Settles O40: the digits of a packed word are the fields packed, and the seven words are encodings. -/
theorem tableWordsDecode : Obligations.TableWordsDecode := by
  refine ⟨fun op rd rs1 rs2 => ?_, decodeOfEncode .nop, decodeOfEncode (.wrlimb 5), decodeOfEncode (.subm 1 2 3),
    decodeOfEncode (.mulf 1 2 3), decodeOfEncode (.mod 1 2 3), decodeOfEncode (.shr 1 2), decodeOfEncode (.cmp 2 3)⟩
  rw [toNat_eq_fields, opField_packWord, rdField_packWord, rs1Field_packWord, rs2Field_packWord]

/-! ### Illegal words (R86) -/

/-- The opcode is the word's lowest byte (R80). -/
theorem opField_toNat (w : CmdWord) : (opField w).toNat = w.toNat % 256 := by
  rw [opField, BitVec.extractLsb'_toNat, Nat.shiftRight_zero]

/-- R85: the opcodes of the map stand in six runs, one a family. -/
theorem opcode_assigned {op : Nat} (i : Instr) (hop : op = (opField (encode i)).toNat) :
    op ≤ 0x09 ∨ (0x10 ≤ op ∧ op ≤ 0x12) ∨ (0x20 ≤ op ∧ op ≤ 0x23) ∨ (0x30 ≤ op ∧ op ≤ 0x31) ∨
      (0x40 ≤ op ∧ op ≤ 0x44) ∨ (0x50 ≤ op ∧ op ≤ 0x56) := by
  subst hop
  cases i <;> rw [encode, opField_packWord] <;> decide

/-- R81, R84: in a word that decodes, the fields that its opcode's format does not use are 0. -/
theorem unusedBits_of_decodeWord {w : CmdWord} {i : Instr} (hd : decodeWord w = .ok i) :
    ((opField w).toNat = 0x00 → w &&& 0xFFFFFF00#32 = 0) ∧
    ((opField w).toNat ∈ [0x01, 0x04, 0x06] → w &&& 0xFFFF0000#32 = 0) ∧
    ((opField w).toNat ∈ [0x02, 0x03, 0x43, 0x44, 0x52, 0x53] → w &&& 0xFF000000#32 = 0) ∧
    ((opField w).toNat ∈ [0x05, 0x07, 0x08, 0x09, 0x55, 0x56] → w &&& 0xFF00FF00#32 = 0) ∧
    ((opField w).toNat ∈ [0x12, 0x54] → w &&& 0x0000FF00#32 = 0) := by
  unfold decodeWord at hd
  split at hd
  case h_32 => cases hd -- an unassigned opcode
  all_goals
    rename_i hop
    -- `hop` decides which clauses speak of the row; their masks are the row's own, above the opcode.
    have hz := and_eq_zero_of_underMask hd
    revert hz
    simp [hop]

end Sys2Proof

namespace Sys2Proof.Machine

/-- Settles O32: such a word does not decode; an encoding's opcode lies in the map, and its unused fields are 0. -/
theorem illegalWordsFail : Obligations.IllegalWordsFail := by
  refine ⟨fun s w he hp hw => ?_, fun w op hop hrange i hi => ?_, fun w op hop hbits i hi => ?_⟩
  · obtain ⟨e, hd⟩ := decodeWord_error hw
    exact step_engine_error he hp hd
  · have := opcode_assigned i (op := op) (by rw [hi, opField_toNat, hop])
    omega
  · have hd : decodeWord w = .ok i := hi ▸ decodeOfEncode i
    obtain ⟨hN, hD, hDS, hS, hSS⟩ := unusedBits_of_decodeWord hd
    rw [opField_toNat, ← hop] at hN hD hDS hS hSS
    tauto

/-! ### The host's statements (R88) -/

/-- When the host is next, its step is the statement at its position, on the state whose entry is taken. -/
theorem step_host {s : State} {st : HostStmt} (he : s.nextEvent = .host)
    (hst : s.host.program[s.host.pos]? = some st) : step s = hostStatement st s.popEvent := by
  simp only [step, he, agentStep, hostStep, State.popEvent_host, hst]

/-- A write to the window leaves the host as it is. -/
@[simp] theorem State.windowWrite_host (s : State) (r : WindowReg) (v : Word) : (s.windowWrite r v).host = s.host := by
  cases r with
  | cmd | arg0 | arg1 => dsimp only [State.windowWrite]; split <;> rfl
  | status | result | param | maxLimbs | fftThreshold | errCmd => rfl

@[simp] theorem State.memWrite_host (s : State) (addr width : Nat) (v : Word) :
    (s.memWrite addr width v).host = s.host := by
  unfold State.memWrite
  split
  · exact s.windowWrite_host _ v
  · rfl

/-- A statement's write, and the host at its next statement. -/
theorem State.hostWrite_eq (s : State) (r : WindowReg) (v : Word) :
    s.hostWrite r v =
      { s.memWrite (s.params.base + r.offset) 8 v with host := { s.host with pos := s.host.pos + 1 } } := by
  rw [State.hostWrite, State.advance, State.goto, State.memWrite_host]

/-- A 64-bit write to a named register's address is that register's write (R54). -/
theorem State.memWrite_named (s : State) (r : WindowReg) (v : Word) :
    s.memWrite (s.params.base + r.offset) 8 v = s.windowWrite r v := by
  simp only [State.memWrite, reached_named]

/-- `read` and `wait` read the named register's value (R54). -/
@[simp] theorem State.hostReadValue_eq (s : State) (r : WindowReg) : s.hostReadValue r = s.windowValue r := by
  simp only [State.hostReadValue, State.memReadValue, reached_named]

/-- `wait` goes on exactly when `BUSY` is 0 (R29, R88). -/
theorem State.hostPoll_eq (s : State) :
    s.hostPoll =
      { s with
        readLog := s.statusWord :: s.readLog
        host := if s.busy then s.host else { s.host with pos := s.host.pos + 1 } } := by
  have hbusy : s.statusWord.getLsbD 0 = s.busy := getLsbD_eq_flag s.statusWord_fields.1
  simp only [State.hostPoll, State.hostReadValue_eq, State.windowValue, hbusy]
  split <;> rfl

/-- `clrflags` clears both flags and nothing else (R29, R88). -/
theorem State.hostWrite_clrflags (s : State) :
    s.hostWrite .status 0x300#64 =
      { s with stickyErr := false, cmdLost := false, host := { s.host with pos := s.host.pos + 1 } } := by
  rw [State.hostWrite_eq, State.memWrite_named]
  simp [State.windowWrite, State.clearFlags]

/-! `bnz` by the value of the most recent `read`. -/

theorem hostBranch_of_zero {name : String} {s : State} (h : s.host.lastRead = some 0) :
    hostBranch name s = .next s.advance := by
  simp [hostBranch, h]

theorem hostBranch_of_label {name : String} {s : State} {v : Word} {n : Nat} (h : s.host.lastRead = some v) (hv : v ≠ 0)
    (hn : labelTarget name s.host.program = some n) : hostBranch name s = .next (s.goto n) := by
  simp only [hostBranch, h, if_neg hv, hn]

theorem hostBranch_of_no_label {name : String} {s : State} {v : Word} (h : s.host.lastRead = some v) (hv : v ≠ 0)
    (hn : labelTarget name s.host.program = none) : hostBranch name s = .fault (.unknownLabel name) := by
  simp only [hostBranch, h, if_neg hv, hn]

theorem hostBranch_of_no_read {name : String} {s : State} (h : s.host.lastRead = none) :
    hostBranch name s = .fault .branchBeforeRead := by
  simp only [hostBranch, h]

/-- Settles O58: the step is the statement's, and each statement's lemma gives its next state. -/
theorem hostStatementsMakeTheirAccesses : Obligations.HostStatementsMakeTheirAccesses := by
  rintro s _ st _ he rfl hst rfl
  have hstep := step_host he hst
  cases st with
  | command | cmd | arg0 | arg1 => exact hstep.trans (congrArg Host.Outcome.next (State.hostWrite_eq _ _ _))
  | wait => exact hstep.trans (congrArg Host.Outcome.next (State.hostPoll_eq _))
  | read r =>
    rw [hstep, hostStatement, State.hostRead, State.hostReadValue_eq]
    cases r <;> rfl
  | clrflags => exact hstep.trans (congrArg Host.Outcome.next (State.hostWrite_clrflags _))
  | label => exact hstep
  | bnz name =>
    refine ⟨?_, fun v before after hv hne hp hb => ?_, fun hv => ?_, fun v hv hne hmem => ?_⟩
    · rintro _ hv rfl
      exact hstep.trans (hostBranch_of_zero hv)
    · exact hstep.trans (hostBranch_of_label hv hne (labelTarget_eq_some.2 ⟨before, after, hp, hb, rfl⟩))
    · exact hstep.trans (hostBranch_of_no_read hv)
    · exact hstep.trans (hostBranch_of_no_label hv hne (labelTarget_eq_none.2 hmem))

end Sys2Proof.Machine
end

section
/-! PROOFS. The family spec/40_limb_store.md: the normalizer and the commands NOP, LDI, COPY, MOVE, RESIZE, RDLIMB,
WRLIMB, LEN, CAP and BITLEN. `exec` of a command is that command's `exec…` function by definition; where a proof says
`change`, it passes to that function, whose rule the laws of `State.command` then run. -/

namespace Sys2Proof.Machine

/-! ### The range check of a command by its registers (R84, R221) -/

theorem registersInRange_one {nreg : Nat} {i : Instr} {r : Reg} (hused : usedRegs i = [r]) (hr : r.toNat < nreg) :
    registersInRange nreg i = true := by
  simp [registersInRange, hused, hr]

theorem registersInRange_two {nreg : Nat} {i : Instr} {r q : Reg} (hused : usedRegs i = [r, q]) (hr : r.toNat < nreg)
    (hq : q.toNat < nreg) : registersInRange nreg i = true := by
  simp [registersInRange, hused, hr, hq]

/-! ### The normalizer (R101) -/

/-- R13: a sign and a magnitude denote a negative integer exactly when the sign is set and the magnitude is not 0. -/
theorem signedVal_neg_iff (sign : Bool) (m : Nat) : signedVal sign m < 0 ↔ sign = true ∧ m ≠ 0 := by
  cases sign
  · simp [signedVal]
  · simp [signedVal, Nat.pos_iff_ne_zero]

/-- R101: the normalizer computes the sign and the limbs of the canonical record. -/
theorem normalizeRaw_eq (sign : Bool) (limbs : List Word) :
    normalizeRaw sign limbs =
      (decide (signedVal sign (mag limbs) < 0), toLimbs (signedVal sign (mag limbs)).natAbs) := by
  rw [normalizeRaw, stripZeros_eq_toLimbs, natAbs_signedVal]
  by_cases hm : mag limbs = 0 <;> simp [signedVal_neg_iff, toLimbs_eq_nil, hm]

/-- Settles O59: `x` is the raw record's integer, written out. -/
theorem normalizerGivesCanonicalRecord : Obligations.NormalizerGivesCanonicalRecord := by
  rintro sign limbs _ rfl
  exact normalizeRaw_eq sign limbs

/-! ### NOP, LDI, COPY, MOVE, RESIZE (R100, R102 to R105) -/

/-- Settles O1: NOP's encoding is the word 0, and no other word decodes to NOP. -/
theorem nopOnlyCompletes : Obligations.NopOnlyCompletes := by
  refine ⟨fun w => ⟨fun h => (encodeOfDecode w .nop h).symm, ?_⟩, fun s => ?_⟩
  · rintro rfl
    exact decodeOfEncode .nop
  · change execNop s = _
    exact State.command_ok rfl rfl

/-- A signed 64-bit integer has at most one limb (R105). -/
theorem limbLen_toInt_le_one (v : Word) : limbLen v.toInt.natAbs ≤ 1 := by
  have hlo := BitVec.le_toInt v
  have hhi := BitVec.toInt_lt (x := v)
  rw [limbLen_le_iff]
  omega

/-- Settles O2: LDI's value is one limb at most, and `MAXLIMBS` is at least 1. -/
theorem ldiWritesSignedArg0 : Obligations.LdiWritesSignedArg0 := by
  intro s rd hs hrd
  obtain ⟨hone, _⟩ := Params.maxLimbs_range hs.1
  refine ⟨rfl, ?_⟩
  change execLdi rd s = _
  exact State.command_wrote (registersInRange_one rfl hrd) rfl (le_trans (limbLen_toInt_le_one s.arg0) hone)

/-- Settles O3: COPY's rule has no case and no error. -/
theorem copyWritesValueAndTightCapacity : Obligations.CopyWritesValueAndTightCapacity := by
  intro s rd rs1 hrd hrs1
  refine ⟨rfl, ?_⟩
  change execCopy rd rs1 s = _
  exact State.command_succeeds (registersInRange_two rfl hrd hrs1)

/-- Settles O4: the two cases of MOVE's rule. -/
theorem moveTransfersRecordAndZeroesSource : Obligations.MoveTransfersRecordAndZeroesSource := by
  intro s rd rs1 hrd hrs1
  have hr := registersInRange_two (i := .move rd rs1) rfl hrd hrs1
  change _ ∧ (_ → execMove rd rs1 s = _) ∧ (_ → execMove rd rs1 s = _)
  refine ⟨rfl, fun hne => ?_, fun heq => ?_⟩
  · exact State.command_ok (t := (s.setReg rd (s.reg rs1)).setReg rs1 BigReg.zero) hr
      (congrArg Except.ok (if_neg hne))
  · exact State.command_ok (t := s) hr (congrArg Except.ok (if_pos heq))

/-- Settles O5: the two cases of RESIZE's rule. -/
theorem resizeOnlyGrowsCapacity : Obligations.ResizeOnlyGrowsCapacity := by
  intro s rd hrd
  have hr := registersInRange_one (i := .resize rd) rfl hrd
  change _ ∧ (_ → execResize rd s = _) ∧ (_ → execResize rd s = _)
  refine ⟨rfl, fun hfits => ?_, fun htooLarge => ?_⟩
  · exact State.command_ok (t := s.setReg rd { s.reg rd with cap := max (s.reg rd).cap s.sizeOperand }) hr
      (if_neg (not_lt.2 hfits))
  · exact State.command_error hr (if_pos htooLarge)

/-! ### RDLIMB and WRLIMB (R106, R107) -/

theorem limbAt_of_lt {a : List Word} {j : Nat} (h : j < a.length) : limbAt a j = a[j] := by
  simp [limbAt, h]

theorem limbAt_of_length_le {a : List Word} {j : Nat} (h : a.length ≤ j) : limbAt a j = 0 := if_neg (not_lt.2 h)

/-- R57: a limb read is a digit of the register's absolute value in base `2^64`. -/
theorem State.limbRead_toNat (s : State) (r : Reg) (j : Nat) :
    (s.limbRead r j).toNat = (s.val r).natAbs / 2 ^ (64 * j) % 2 ^ 64 := by
  rw [State.limbRead, limbAt_toNat, State.mag_reg]

/-- Settles O6: the answer is the limb read, below the length, at and above it, and as a number. -/
theorem rdlimbAnswersLimbOfMagnitude : Obligations.RdlimbAnswersLimbOfMagnitude := by
  intro s rs1 hrs1
  refine ⟨rfl, s.limbRead rs1 s.arg0.toNat, ?_, limbAt_of_lt, limbAt_of_length_le, s.limbRead_toNat rs1 _⟩
  change execRdlimb rs1 s = _
  exact State.command_answers (registersInRange_one rfl hrs1)

/-- The integer that WRLIMB writes (R107). -/
def State.wrlimbValue (s : State) (rd : Reg) : Int :=
  signedVal (s.reg rd).sign (mag (replaceLimb (s.reg rd).limbs s.arg0.toNat s.arg1))

/-- R107: below `MAXLIMBS` the value with one limb replaced fits the register, so the write-back never fails. -/
theorem State.wrlimbValue_fits {s : State} (hs : s.wf) (rd : Reg) (hj : s.arg0.toNat < s.params.maxLimbs) :
    limbLen (s.wrlimbValue rd).natAbs ≤ s.params.maxLimbs := by
  have hlen : (s.reg rd).limbs.length ≤ s.params.maxLimbs := State.len_reg hs rd ▸ State.val_fits hs rd
  rw [State.wrlimbValue, natAbs_signedVal]
  exact le_trans (limbLen_replaceLimb _ _ _) (max_le hj hlen)

/-- R107: WRLIMB with an index in range, as a whole next state. -/
theorem exec_wrlimb {s : State} {rd : Reg} (hs : s.wf) (hrd : rd.toNat < s.params.nreg)
    (hj : s.arg0.toNat < s.params.maxLimbs) : exec (.wrlimb rd) s = .next (s.wrote rd (s.wrlimbValue rd)) := by
  change execWrlimb rd s = _
  exact State.command_wrote (registersInRange_one rfl hrd) (if_neg (not_le.2 hj)) (State.wrlimbValue_fits hs rd hj)

/-- Settles O7: the value written is the one with one limb exchanged; an index out of range is the rule's only error. -/
theorem wrlimbReplacesOneLimb : Obligations.WrlimbReplacesOneLimb := by
  intro s rd hs hrd
  refine ⟨rfl, fun hj m hm => ?_, fun hj => ?_⟩
  · rw [exec_wrlimb hs hrd hj, State.wrlimbValue, signedVal_replaceLimb (State.reg_normalized hs rd) _ _ m hm]
    rfl
  · change execWrlimb rd s = _
    exact State.command_error (registersInRange_one rfl hrd) (if_pos hj)

/-- R107: every limb of the destination after a WRLIMB. -/
theorem State.limbRead_wrote_wrlimbValue {s : State} {rd : Reg} (hrd : rd.toNat < s.regs.length) (j : Nat) :
    (s.wrote rd (s.wrlimbValue rd)).limbRead rd j = if j = s.arg0.toNat then s.arg1 else s.limbRead rd j := by
  rw [State.limbRead, State.reg_wrote_self hrd, State.wrlimbValue, limbAt_canon_signedVal, limbAt_replaceLimb,
    State.limbRead]

/-- Settles O8: the destination limb by limb, and every other register as a whole. -/
theorem wrlimbLeavesEveryOtherLimb : Obligations.WrlimbLeavesEveryOtherLimb := by
  intro s rd hs hrd hj
  have hregs : s.regs.length = s.params.nreg := hs.2.1
  have hself := State.limbRead_wrote_wrlimbValue (s := s) (rd := rd) (hregs ▸ hrd)
  refine ⟨_, exec_wrlimb hs hrd hj, (hself _).trans (if_pos rfl), fun r j hother => ?_⟩
  by_cases hr : r = rd
  · subst hr
    exact (hself j).trans (if_neg (hother.resolve_left (not_not_intro rfl)))
  · rw [State.limbRead, State.reg_wrote_ne s hr, State.limbRead]

/-! ### LEN, CAP and BITLEN (R108 to R110) -/

/-- Settles O9: a sound register's length is its value's, and `MAXLIMBS` is at most `2^57`. -/
theorem lenAndCapAnswerLengths : Obligations.LenAndCapAnswerLengths := by
  intro s rs1 hs hrs1
  obtain ⟨_, hlen, hcap⟩ := State.reg_wf hs rs1
  obtain ⟨_, hmax⟩ := Params.maxLimbs_range hs.1
  rw [← State.len_reg hs rs1]
  change _ ∧ _ ∧ execLen rs1 s = _ ∧ execCap rs1 s = _ ∧ _
  exact ⟨rfl, rfl, State.command_answers (registersInRange_one rfl hrs1),
    State.command_answers (registersInRange_one rfl hrs1), hlen, hcap, by omega⟩

theorem bitlen_le_limbLen (x : Nat) : bitlen x ≤ 64 * limbLen x := (bitlen_le_iff _ _).2 (lt_two_pow_limbLen x)

/-- Settles O10: the length and the top limb give the bit length, which is at most `64 * MAXLIMBS`. -/
theorem bitlenAnswersBitLength : Obligations.BitlenAnswersBitLength := by
  intro s rs1 hs hrs1
  have hbits : limbsBitLength (s.reg rs1).limbs = bitlen (s.val rs1).natAbs := by
    rw [limbsBitLength_eq (BigReg.normalized_getLast (State.reg_normalized hs rs1)), State.mag_reg]
  have hle := bitlen_le_limbLen (s.val rs1).natAbs
  have hfits := State.val_fits hs rs1
  obtain ⟨_, hmax⟩ := Params.maxLimbs_range hs.1
  refine ⟨rfl, ?_, by omega⟩
  change execBitlen rs1 s = _
  rw [← hbits]
  exact State.command_answers (registersInRange_one rfl hrs1)

end Sys2Proof.Machine
end

section
/-! PROOFS. The family spec/41_magnitude.md: the magnitude commands ADDM, SUBM and CMPM. As in the family before,
`change` passes from `exec` of a command to that command's `exec…` function. -/

namespace Sys2Proof.Machine

theorem registersInRange_three {nreg : Nat} {i : Instr} {r q p : Reg} (hused : usedRegs i = [r, q, p])
    (hr : r.toNat < nreg) (hq : q.toNat < nreg) (hp : p.toNat < nreg) : registersInRange nreg i = true := by
  simp [registersInRange, hused, hr, hq, hp]

/-! ### The magnitude kernels on registers, in terms of absolute values (R126 to R128) -/

/-- The magnitude of a register as an integer (R13). -/
theorem State.natCast_mag_reg (s : State) (r : Reg) : (mag (s.reg r).limbs : Int) = |s.val r| := by
  rw [State.mag_reg, Int.natCast_natAbs]

/-- R127: `add_mag` on two registers, sound or not. -/
theorem State.mag_addMag_reg (s : State) (r q : Reg) :
    (mag (addMag (s.reg r).limbs (s.reg q).limbs) : Int) = |s.val r| + |s.val q| := by
  rw [mag_addMag, Nat.cast_add, State.natCast_mag_reg, State.natCast_mag_reg]

/-- R128: `sub_mag` on two registers, under its precondition. -/
theorem State.mag_subMag_reg {s : State} {r q : Reg} (h : |s.val q| ≤ |s.val r|) :
    (mag (subMag (s.reg r).limbs (s.reg q).limbs) : Int) = |s.val r| - |s.val q| := by
  rw [← State.natCast_mag_reg, ← State.natCast_mag_reg, Nat.cast_le] at h
  rw [mag_subMag _ _ h, Nat.cast_sub h, State.natCast_mag_reg, State.natCast_mag_reg]

/-- R126: `cmp_mag` on two sound registers is the order of the absolute values. -/
theorem State.cmpMag_reg {s : State} (hs : s.wf) (r q : Reg) :
    cmpMag (s.reg r).limbs (s.reg q).limbs = compare |s.val r| |s.val q| := by
  rw [cmpMag_eq_compare (BigReg.normalized_getLast (State.reg_normalized hs r))
    (BigReg.normalized_getLast (State.reg_normalized hs q)), ← State.natCast_mag_reg, ← State.natCast_mag_reg,
    ← cmp_eq_compare, ← cmp_eq_compare, Nat.strictMono_cast.cmp_map_eq]

/-- R121: a difference of magnitudes that is not negative is no longer than the minuend, so it always fits. -/
theorem State.magDiff_fits {s : State} (hs : s.wf) {r q : Reg} (h : |s.val q| ≤ |s.val r|) :
    limbLen (|s.val r| - |s.val q|).natAbs ≤ s.params.maxLimbs := by
  refine le_trans (limbLen_mono ?_) (State.val_fits hs r)
  rw [Int.abs_eq_natAbs, Int.abs_eq_natAbs] at h ⊢
  omega

/-! ### ADDM, SUBM and CMPM (R120 to R122) -/

/-- Settles O11: the rule writes back the sum of the absolute values, which fits or not. -/
theorem addmSumsMagnitudes : Obligations.AddmSumsMagnitudes := by
  intro s rd rs1 rs2 hrd hrs1 hrs2
  have hrange : registersInRange s.params.nreg (.addm rd rs1 rs2) = true :=
    registersInRange_three rfl hrd hrs1 hrs2
  have hrule : s.writeBack rd (mag (addMag (s.reg rs1).limbs (s.reg rs2).limbs)) =
      s.writeBack rd (|s.val rs1| + |s.val rs2|) := by rw [State.mag_addMag_reg]
  have hsum : (|s.val rs1| + |s.val rs2|).natAbs = (s.val rs1).natAbs + (s.val rs2).natAbs := by
    rw [Int.natAbs_add_of_nonneg (abs_nonneg _) (abs_nonneg _), Int.natAbs_abs, Int.natAbs_abs]
  rw [← hsum]
  change _ ∧ (_ → execAddm rd rs1 rs2 s = _) ∧ (_ → execAddm rd rs1 rs2 s = _)
  exact ⟨rfl, State.command_wrote hrange hrule, State.command_tooLong hrange hrule⟩

/-- Settles O12: the rule's test is the order of the absolute values, and a difference that is not negative fits. -/
theorem submSubtractsOrRaisesMagnitudeOrder : Obligations.SubmSubtractsOrRaisesMagnitudeOrder := by
  intro s rd rs1 rs2 hs hrd hrs1 hrs2
  have hrange : registersInRange s.params.nreg (.subm rd rs1 rs2) = true :=
    registersInRange_three rfl hrd hrs1 hrs2
  have hless : cmpMag (s.reg rs1).limbs (s.reg rs2).limbs = .lt ↔ |s.val rs1| < |s.val rs2| := by
    rw [State.cmpMag_reg hs, compare_lt_iff_lt]
  change _ ∧ (_ → execSubm rd rs1 rs2 s = _) ∧ (_ → execSubm rd rs1 rs2 s = _)
  refine ⟨rfl, fun hle => ?_, fun hlt => ?_⟩
  · refine State.command_wrote hrange ((if_neg (mt hless.1 hle.not_gt)).trans ?_) (State.magDiff_fits hs hle)
    rw [State.mag_subMag_reg hle]
  · exact State.command_error hrange (if_pos (hless.2 hlt))

/-- Settles O13: `cmp_mag` gives the order of the absolute values, and `RESULT` the sign of their difference. -/
theorem cmpmAnswersMagnitudeOrder : Obligations.CmpmAnswersMagnitudeOrder := by
  intro s rs1 rs2 hs hrs1 hrs2
  refine ⟨rfl, ?_⟩
  change execCmpm rs1 rs2 s = _
  rw [← orderWord_compare, ← State.cmpMag_reg hs]
  exact State.command_answers (registersInRange_two rfl hrs1 hrs2)

end Sys2Proof.Machine
end

section
/-! PROOFS. The family spec/42_multiply.md: MUL, MULS, MULK and MULF. The four commands share one rule and differ in their
path column, so each end of a multiply is proved once for all of them, and the obligations read it off. -/

namespace Sys2Proof.Machine

/-! ### The four commands with their path columns (R142 to R145) -/

/-- `IsMultiply rd rs1 rs2 i sel`: `i` is a multiply of these fields, and `sel` its path column (R141). -/
inductive IsMultiply (rd rs1 rs2 : Reg) : Instr → (Params → Nat → MulPath) → Prop where
  | mul : IsMultiply rd rs1 rs2 (.mul rd rs1 rs2) dispatchPath
  | muls : IsMultiply rd rs1 rs2 (.muls rd rs1 rs2) fun _ _ => .schoolbook
  | mulk : IsMultiply rd rs1 rs2 (.mulk rd rs1 rs2) forcedKaratsubaPath
  | mulf : IsMultiply rd rs1 rs2 (.mulf rd rs1 rs2) fun _ _ => .fft

namespace IsMultiply
variable {rd rs1 rs2 : Reg} {i : Instr} {sel : Params → Nat → MulPath}

theorem exec_eq (h : IsMultiply rd rs1 rs2 i sel) (s : State) :
    exec i s = s.command i (multiplyRule sel rd rs1 rs2) := by
  cases h <;> rfl

theorem usedRegs_eq (h : IsMultiply rd rs1 rs2 i sel) : usedRegs i = [rd, rs1, rs2] := by
  cases h <;> rfl

/-- R141: no path column holds the path of the zero short-circuit. -/
theorem sel_ne_zeroOperand (h : IsMultiply rd rs1 rs2 i sel) (p : Params) (n : Nat) : sel p n ≠ .zeroOperand := by
  cases h with
  | mul => unfold dispatchPath; split_ifs <;> decide
  | mulk => unfold forcedKaratsubaPath; split_ifs <;> decide
  | muls | mulf => exact nofun

/-- R143 to R145: the forced multiplies are among the four commands. -/
theorem of_mem_forced (h : i ∈ [Instr.muls rd rs1 rs2, .mulk rd rs1 rs2, .mulf rd rs1 rs2]) :
    ∃ sel, IsMultiply rd rs1 rs2 i sel := by
  simp only [List.mem_cons, List.not_mem_nil, or_false] at h
  rcases h with rfl | rfl | rfl
  · exact ⟨_, .muls⟩
  · exact ⟨_, .mulk⟩
  · exact ⟨_, .mulf⟩

/-! ### The two ends of a multiply (R140, R141, R149) -/

section
variable {s : State} (h : IsMultiply rd rs1 rs2 i sel) (hs : s.wf) (hrd : rd.toNat < s.params.nreg)
  (hrs1 : rs1.toNat < s.params.nreg) (hrs2 : rs2.toNat < s.params.nreg)
include h hs hrd hrs1 hrs2

/-- A product that fits is written in full, and `MULPATH` reports the zero short-circuit or the command's path. -/
theorem exec_fits (hfits : limbLen (s.val rs1 * s.val rs2).natAbs ≤ s.params.maxLimbs) :
    exec i s = .next { s.wrote rd (s.val rs1 * s.val rs2) with
      mulPath :=
        if s.val rs1 = 0 ∨ s.val rs2 = 0 then .zeroOperand
        else sel s.params (max (limbLen (s.val rs1).natAbs) (limbLen (s.val rs2).natAbs)) } := by
  have hrule := multiplyRule_eq hs sel h.sel_ne_zeroOperand rd rs1 rs2
  rw [State.writeBack_fits hfits, pathTaken_eq hs] at hrule
  rw [h.exec_eq, State.command_ok (registersInRange_three h.usedRegs_eq hrd hrs1 hrs2) hrule]
  rfl

/-- A product that does not fit fails with CapacityExceeded, whatever the path, and leaves `MULPATH`. -/
theorem exec_tooLong (hlong : s.params.maxLimbs < limbLen (s.val rs1 * s.val rs2).natAbs) :
    exec i s = .next (s.failed .capacityExceeded i) := by
  have hrule := multiplyRule_eq hs sel h.sel_ne_zeroOperand rd rs1 rs2
  rw [State.writeBack_tooLong hlong] at hrule
  rw [h.exec_eq, State.command_error (registersInRange_three h.usedRegs_eq hrd hrs1 hrs2) hrule]
  rfl

end
end IsMultiply

/-! ### The obligations -/

/-- Settles O14: the two ends of a multiply with MUL's path column, the dispatcher. -/
theorem mulWritesExactProductByDispatch : Obligations.MulWritesExactProductByDispatch := by
  rintro s rd rs1 rs2 hs hrd hrs1 hrs2 _ rfl
  exact ⟨rfl, IsMultiply.mul.exec_fits hs hrd hrs1 hrs2, IsMultiply.mul.exec_tooLong hs hrd hrs1 hrs2⟩

/-- Settles O15: the two ends of a multiply with the path column of each forced command. -/
theorem forcedMultipliesWriteExactProduct : Obligations.ForcedMultipliesWriteExactProduct := by
  intro s rd rs1 rs2 hs hrd hrs1 hrs2
  refine ⟨rfl, rfl, rfl, fun hfits => ?_, fun hlong => ?_⟩
  · exact ⟨IsMultiply.muls.exec_fits hs hrd hrs1 hrs2 hfits, IsMultiply.mulk.exec_fits hs hrd hrs1 hrs2 hfits,
      IsMultiply.mulf.exec_fits hs hrd hrs1 hrs2 hfits⟩
  · exact ⟨IsMultiply.muls.exec_tooLong hs hrd hrs1 hrs2 hlong, IsMultiply.mulk.exec_tooLong hs hrd hrs1 hrs2 hlong,
      IsMultiply.mulf.exec_tooLong hs hrd hrs1 hrs2 hlong⟩

/-- Settles O16: whether the product fits does not depend on the command. Where it fits, the ends differ in `MULPATH`;
where it does not, in the recorded word. -/
theorem multiplyPathsAgree : Obligations.MultiplyPathsAgree := by
  intro s rd rs1 rs2 hs hrd hrs1 hrs2
  have hregs : s.regs.length = s.params.nreg := hs.2.1
  rcases le_or_gt (limbLen (s.val rs1 * s.val rs2).natAbs) s.params.maxLimbs with hfits | hlong
  · refine ⟨_, IsMultiply.mul.exec_fits hs hrd hrs1 hrs2 hfits,
      fun _ => State.val_wrote_self (hregs ▸ hrd) _, fun i hi => ?_⟩
    obtain ⟨sel, hmul⟩ := IsMultiply.of_mem_forced hi
    exact ⟨_, hmul.exec_fits hs hrd hrs1 hrs2 hfits, rfl, fun _ => rfl, fun hfailed => absurd rfl hfailed⟩
  · refine ⟨_, IsMultiply.mul.exec_tooLong hs hrd hrs1 hrs2 hlong, fun hok => absurd hok nofun, fun i hi => ?_⟩
    obtain ⟨sel, hmul⟩ := IsMultiply.of_mem_forced hi
    exact ⟨_, hmul.exec_tooLong hs hrd hrs1 hrs2 hlong, rfl, fun hok => absurd hok nofun, fun _ => rfl⟩

/-! ### A fitting product on the FFT path -/

/-- `-1` and a value of `MAXLIMBS` limbs, one more than `FFT_THRESHOLD_LIMBS`. -/
def fftSample : State :=
  { State.resetOf { nreg := 2, maxLimbs := 4, schoolbookMax := 3, fftThreshold := 3, base := 0 } with
    regs := [{ sign := true, limbs := [1], cap := 1 }, { sign := false, limbs := [1, 0, 0, 1], cap := 4 }] }

/-- The hypotheses of MulWritesExactProductByDispatch, and of its clause for the FFT path, hold together. -/
theorem witness_mul_fits_on_fft_path :
    fftSample.wf ∧ (0 : Reg).toNat < fftSample.params.nreg ∧ (1 : Reg).toNat < fftSample.params.nreg ∧
    fftSample.val 0 ≠ 0 ∧ fftSample.val 1 ≠ 0 ∧
    limbLen (fftSample.val 0 * fftSample.val 1).natAbs ≤ fftSample.params.maxLimbs ∧
    fftSample.params.fftThreshold < max (limbLen (fftSample.val 0).natAbs) (limbLen (fftSample.val 1).natAbs) := by
  decide

end Sys2Proof.Machine
end

section
/-! PROOFS. The family spec/43_divide.md: DIV and MOD. The two commands share the signed division rule and differ in the
half of its answer that they write, so each end of a division is proved once for both, and the obligations read it off. -/

namespace Sys2Proof.Machine

/-! ### The two commands with the half of the answer that each writes (R161, R162) -/

/-- `IsDivide rd rs1 rs2 i pick`: `i` is a division of these fields, and writes the half `pick` of quotient and
remainder. -/
inductive IsDivide (rd rs1 rs2 : Reg) : Instr → (Int × Int → Int) → Prop where
  | div : IsDivide rd rs1 rs2 (.div rd rs1 rs2) Prod.fst
  | mod : IsDivide rd rs1 rs2 (.mod rd rs1 rs2) Prod.snd

/-- The common division body: the signed division rule, and one half of its answer written back (R163, R26). -/
def divideRule (pick : Int × Int → Int) (rd rs1 rs2 : Reg) : Rule := fun s =>
  match divmodSigned (s.reg rs1) (s.reg rs2) with
  | .ok qr => s.writeBack rd (pick qr)
  | .error e => .error e

/-- R163: for a nonzero divisor the rule writes back the truncating quotient or its remainder. -/
theorem divideRule_of_ne_zero {s : State} (hs : s.wf) (pick : Int × Int → Int) (rd : Reg) {rs1 rs2 : Reg}
    (h0 : s.val rs2 ≠ 0) :
    divideRule pick rd rs1 rs2 s =
      s.writeBack rd (pick ((s.val rs1).tdiv (s.val rs2), (s.val rs1).tmod (s.val rs2))) := by
  have hqr : divmodSigned (s.reg rs1) (s.reg rs2) =
      .ok ((s.val rs1).tdiv (s.val rs2), (s.val rs1).tmod (s.val rs2)) :=
    divmodSigned_eq (State.reg_normalized hs rs1) (State.reg_normalized hs rs2) h0
  simp only [divideRule, hqr]

/-- R163: a zero divisor raises DivisionByZero, the zero dividend included. -/
theorem divideRule_of_eq_zero {s : State} (hs : s.wf) (pick : Int × Int → Int) (rd rs1 : Reg) {rs2 : Reg}
    (h0 : s.val rs2 = 0) : divideRule pick rd rs1 rs2 s = .error .divisionByZero := by
  simp only [divideRule, divmodSigned_zero (State.reg_normalized hs rs2) h0]

namespace IsDivide
variable {rd rs1 rs2 : Reg} {i : Instr} {pick : Int × Int → Int}

theorem exec_eq (h : IsDivide rd rs1 rs2 i pick) (s : State) :
    exec i s = s.command i (divideRule pick rd rs1 rs2) := by
  cases h <;> rfl

theorem usedRegs_eq (h : IsDivide rd rs1 rs2 i pick) : usedRegs i = [rd, rs1, rs2] := by
  cases h <;> rfl

/-- R161, R162: neither half is larger than the dividend. -/
theorem natAbs_pick_le (h : IsDivide rd rs1 rs2 i pick) (a b : Int) :
    (pick (a.tdiv b, a.tmod b)).natAbs ≤ a.natAbs := by
  cases h with
  | div => exact Int.natAbs_tdiv_le_natAbs a b
  | mod => exact Int.natAbs_tmod a b ▸ Nat.mod_le _ _

/-! ### The two ends of a division -/

section
variable {s : State} (h : IsDivide rd rs1 rs2 i pick) (hs : s.wf)
include h hs

/-- What a division writes fits as its dividend does, so CapacityExceeded never occurs. -/
theorem pick_fits (b : Int) :
    limbLen (pick ((s.val rs1).tdiv b, (s.val rs1).tmod b)).natAbs ≤ s.params.maxLimbs :=
  le_trans (limbLen_mono (h.natAbs_pick_le _ b)) (State.val_fits hs rs1)

variable (hrd : rd.toNat < s.params.nreg) (hrs1 : rs1.toNat < s.params.nreg) (hrs2 : rs2.toNat < s.params.nreg)
include hrd hrs1 hrs2

/-- A division by a nonzero divisor completes, and writes its half of quotient and remainder. -/
theorem exec_of_ne_zero (h0 : s.val rs2 ≠ 0) :
    exec i s = .next (s.wrote rd (pick ((s.val rs1).tdiv (s.val rs2), (s.val rs1).tmod (s.val rs2)))) := by
  rw [h.exec_eq]
  exact State.command_wrote (registersInRange_three h.usedRegs_eq hrd hrs1 hrs2)
    (divideRule_of_ne_zero hs pick rd h0) (h.pick_fits hs _)

/-- A division by zero fails, whatever the dividend. -/
theorem exec_of_eq_zero (h0 : s.val rs2 = 0) : exec i s = .next (s.failed .divisionByZero i) := by
  rw [h.exec_eq]
  exact State.command_error (registersInRange_three h.usedRegs_eq hrd hrs1 hrs2)
    (divideRule_of_eq_zero hs pick rd rs1 h0)

end
end IsDivide

/-! ### DIV and MOD (R161, R162) -/

/-- Settles O17: the two ends of a division that writes the quotient. -/
theorem divWritesTruncatingQuotient : Obligations.DivWritesTruncatingQuotient := by
  intro s rd rs1 rs2 hs hrd hrs1 hrs2
  exact ⟨rfl, IsDivide.div.exec_of_ne_zero hs hrd hrs1 hrs2, IsDivide.div.exec_of_eq_zero hs hrd hrs1 hrs2⟩

/-- Settles O18: the two ends of a division that writes the remainder. -/
theorem modWritesTruncatingRemainder : Obligations.ModWritesTruncatingRemainder := by
  intro s rd rs1 rs2 hs hrd hrs1 hrs2
  exact ⟨rfl, IsDivide.mod.exec_of_ne_zero hs hrd hrs1 hrs2, IsDivide.mod.exec_of_eq_zero hs hrd hrs1 hrs2⟩

/-! ### DIV, then MOD (R163) -/

/-- R11: the remainder is smaller than the divisor. -/
theorem abs_tmod_lt_abs (a : Int) {b : Int} (hb : b ≠ 0) : |a.tmod b| < |b| := by
  rw [Int.abs_eq_natAbs, Int.abs_eq_natAbs, Int.natAbs_tmod, Nat.cast_lt]
  exact Nat.mod_lt _ (Int.natAbs_pos.2 hb)

/-- R11: a remainder that is not 0 has the dividend's sign. -/
theorem tmod_neg_iff {a b : Int} (h : a.tmod b ≠ 0) : a.tmod b < 0 ↔ a < 0 := by
  have hsign : (a.tmod b).sign = a.sign := by
    rw [Int.sign_tmod, if_neg (mt Int.tmod_eq_zero_of_dvd h)]
  rw [← Int.sign_eq_neg_one_iff_neg, hsign, Int.sign_eq_neg_one_iff_neg]

/-- DIV keeps a sound state sound (R22, R23, R26). -/
theorem State.wrote_tdiv_wf {s : State} (hs : s.wf) (rq ra rb : Reg) :
    (s.wrote rq ((s.val ra).tdiv (s.val rb))).wf :=
  State.wrote_wf hs rq ((IsDivide.div (rd := rq) (rs2 := rb)).pick_fits hs (s.val rb))

/-- R89: DIV leaves dividend and divisor, as its destination is neither, so MOD divides the same values again. -/
theorem exec_mod_after_div {s : State} {rq rr ra rb : Reg} (hs : s.wf) (hrr : rr.toNat < s.params.nreg)
    (hra : ra.toNat < s.params.nreg) (hrb : rb.toNat < s.params.nreg) (hqa : rq ≠ ra) (hqb : rq ≠ rb)
    (h0 : s.val rb ≠ 0) :
    exec (.mod rr ra rb) (s.wrote rq ((s.val ra).tdiv (s.val rb))) =
      .next ((s.wrote rq ((s.val ra).tdiv (s.val rb))).wrote rr ((s.val ra).tmod (s.val rb))) := by
  have ha := State.val_wrote_ne s hqa.symm ((s.val ra).tdiv (s.val rb))
  have hb := State.val_wrote_ne s hqb.symm ((s.val ra).tdiv (s.val rb))
  have hmod := IsDivide.mod.exec_of_ne_zero (State.wrote_tdiv_wf hs rq ra rb) hrr hra hrb (hb.trans_ne h0)
  rwa [ha, hb] at hmod

/-- Settles O19: the two halves of one division, as MOD's destination is not the register of the quotient. -/
theorem divThenModRecombine : Obligations.DivThenModRecombine := by
  intro s rq rr ra rb hs hrq hrr hra hrb hqa hqb hqr h0
  have hregs : s.regs.length = s.params.nreg := hs.2.1
  have hregs' : (s.wrote rq ((s.val ra).tdiv (s.val rb))).regs.length = s.params.nreg :=
    (State.wrote_tdiv_wf hs rq ra rb).2.1
  refine ⟨_, _, IsDivide.div.exec_of_ne_zero hs hrq hra hrb h0, exec_mod_after_div hs hrr hra hrb hqa hqb h0, ?_⟩
  rw [State.val_wrote_ne _ hqr, State.val_wrote_self (hregs ▸ hrq), State.val_wrote_self (hregs' ▸ hrr)]
  exact ⟨Int.tdiv_mul_add_tmod _ _, abs_tmod_lt_abs _ h0, tmod_neg_iff⟩

end Sys2Proof.Machine
end

section
/-! PROOFS. The family spec/44_bitwise.md: AND, OR, XOR, SHL and SHR. Each command writes one integer back: the logical
operations by their common body, whose result can need one limb more than the operands in the carry-out case only, and
the shifts by a product with, or a truncating division by, a power of two. -/

namespace Sys2Proof.Machine

/-! ### The logical operations (R180 to R184, R187) -/

/-- The common body of the logical commands: the combined buffers converted back and written (R184, R26). -/
def logicalRule (op : Word → Word → Word) (signOp : Bool → Bool → Bool) (rd rs1 rs2 : Reg) : Rule := fun s =>
  s.writeBack rd (logicalVal op signOp (s.reg rs1) (s.reg rs2))

theorem exec_and (rd rs1 rs2 : Reg) (s : State) :
    exec (.and rd rs1 rs2) s = s.command (.and rd rs1 rs2)
      (logicalRule (fun x y => x &&& y) (fun p q => p && q) rd rs1 rs2) := rfl

theorem exec_or (rd rs1 rs2 : Reg) (s : State) :
    exec (.or rd rs1 rs2) s = s.command (.or rd rs1 rs2)
      (logicalRule (fun x y => x ||| y) (fun p q => p || q) rd rs1 rs2) := rfl

theorem exec_xor (rd rs1 rs2 : Reg) (s : State) :
    exec (.xor rd rs1 rs2) s = s.command (.xor rd rs1 rs2)
      (logicalRule (fun x y => x ^^^ y) (fun p q => p ^^ q) rd rs1 rs2) := rfl

/-- R184: the result of the common body is a signed integer of `64n + 1` bits, for any operation. -/
theorem logicalVal_range (op : Word → Word → Word) (signOp : Bool → Bool → Bool) {a b : BigReg} {n : Nat}
    (ha : a.len ≤ n) (hb : b.len ≤ n) :
    -2 ^ (64 * n) ≤ logicalVal op signOp a b ∧ logicalVal op signOp a b < 2 ^ (64 * n) := by
  have hpos : (0 : Int) < 2 ^ (64 * n) := by positivity
  simp only [logicalVal]
  split
  · exact ⟨by omega, hpos⟩
  · set w := max a.len b.len with hw
    set r := List.zipWith op (toTc w a) (toTc w b) with hr
    have hlen : r.length = w := by simp [hr, hw]
    have hmag : (mag r : Int) < 2 ^ (64 * w) := by exact_mod_cast hlen ▸ mag_lt r
    have hwide : (2 : Int) ^ (64 * w) ≤ 2 ^ (64 * n) := pow_le_pow_right₀ (by norm_num) (by omega)
    split <;> constructor <;> omega

/-- R184: an integer of `64n + 1` bits has a magnitude of `n` limbs, but for the lowest one, which needs one more. -/
theorem limbLen_natAbs_le_iff {x : Int} {n : Nat} (hlo : -2 ^ (64 * n) ≤ x) (hhi : x < 2 ^ (64 * n)) :
    limbLen x.natAbs ≤ n ↔ x ≠ -2 ^ (64 * n) := by
  rw [limbLen_le_iff, ← Nat.cast_lt (α := Int), Int.natCast_natAbs]
  push_cast
  rw [abs_lt]
  exact ⟨fun h => h.1.ne', fun h => ⟨lt_of_le_of_ne hlo h.symm, hhi⟩⟩

/-- R184: in a sound state the carry-out case at full length is the only one where the result does not fit. -/
theorem State.logicalVal_fits_iff {s : State} (hs : s.wf) (op : Word → Word → Word) (signOp : Bool → Bool → Bool)
    (r q : Reg) :
    limbLen (logicalVal op signOp (s.reg r) (s.reg q)).natAbs ≤ s.params.maxLimbs ↔
      logicalVal op signOp (s.reg r) (s.reg q) ≠ -2 ^ (64 * s.params.maxLimbs) := by
  obtain ⟨_, hrlen, hrcap⟩ := State.reg_wf hs r
  obtain ⟨_, hqlen, hqcap⟩ := State.reg_wf hs q
  obtain ⟨hlo, hhi⟩ := logicalVal_range op signOp (hrlen.trans hrcap) (hqlen.trans hqcap)
  exact limbLen_natAbs_le_iff hlo hhi

/-- R184: the two ends of a logical command whose common body computes `x`. -/
theorem State.command_logicalRule {s : State} (hs : s.wf) {i : Instr} {rd rs1 rs2 : Reg} {x : Int}
    {op : Word → Word → Word} {signOp : Bool → Bool → Bool} (hr : registersInRange s.params.nreg i = true)
    (hx : logicalVal op signOp (s.reg rs1) (s.reg rs2) = x) :
    (x ≠ -2 ^ (64 * s.params.maxLimbs) →
      s.command i (logicalRule op signOp rd rs1 rs2) = .next (s.wrote rd x)) ∧
    (x = -2 ^ (64 * s.params.maxLimbs) →
      s.command i (logicalRule op signOp rd rs1 rs2) = .next (s.failed .capacityExceeded i)) := by
  have hfits := State.logicalVal_fits_iff hs op signOp rs1 rs2
  have hrule : logicalRule op signOp rd rs1 rs2 s = s.writeBack rd x := congrArg (s.writeBack rd) hx
  rw [hx] at hfits
  exact ⟨fun h => State.command_wrote hr hrule (hfits.2 h),
    fun h => State.command_tooLong hr hrule (not_le.1 fun hle => hfits.1 hle h)⟩

/-- Settles O20: the common body computes the integer AND, and its carry-out case is the only failure. -/
theorem andWritesIntegerAnd : Obligations.AndWritesIntegerAnd := by
  intro s rd rs1 rs2 hs hrd hrs1 hrs2
  rw [exec_and]
  exact ⟨rfl, State.command_logicalRule hs (registersInRange_three rfl hrd hrs1 hrs2)
    (logicalVal_and (State.reg_normalized hs rs1) (State.reg_normalized hs rs2))⟩

/-- R182: the OR of two sound registers is no longer than the longer of them, so it always fits. -/
theorem State.lor_fits {s : State} (hs : s.wf) (r q : Reg) :
    limbLen (Int.lor (s.val r) (s.val q)).natAbs ≤ s.params.maxLimbs :=
  (limbLen_le_iff _ _).2 (natAbs_lor_lt _ _ _ ((limbLen_le_iff _ _).1 (State.val_fits hs r))
    ((limbLen_le_iff _ _).1 (State.val_fits hs q)))

/-- Settles O21: the common body computes the integer OR, which always fits. -/
theorem orWritesIntegerOr : Obligations.OrWritesIntegerOr := by
  intro s rd rs1 rs2 hs hrd hrs1 hrs2
  have hor := logicalVal_or (State.reg_normalized hs rs1) (State.reg_normalized hs rs2)
  rw [exec_or]
  exact ⟨rfl, State.command_wrote (registersInRange_three rfl hrd hrs1 hrs2) (congrArg (s.writeBack rd) hor)
    (State.lor_fits hs rs1 rs2)⟩

/-- Settles O22: the common body computes the integer XOR, and its carry-out case is the only failure. -/
theorem xorWritesIntegerXor : Obligations.XorWritesIntegerXor := by
  intro s rd rs1 rs2 hs hrd hrs1 hrs2
  rw [exec_xor]
  exact ⟨rfl, State.command_logicalRule hs (registersInRange_three rfl hrd hrs1 hrs2)
    (logicalVal_xor (State.reg_normalized hs rs1) (State.reg_normalized hs rs2))⟩

/-! ### The shifts (R185, R186, R188) -/

/-- R185: the number of limbs of a nonzero value shifted left, from its bit length and the amount. -/
theorem limbLen_mul_two_pow {x : Int} (hx : x ≠ 0) (k : Nat) :
    limbLen (x * 2 ^ k).natAbs = (bitlen x.natAbs + k + 63) / 64 := by
  have habs : (x * 2 ^ k).natAbs = x.natAbs * 2 ^ k := by rw [Int.natAbs_mul, Int.natAbs_pow]; rfl
  rw [habs, limbLen, bitlen_mul_pow (Int.natAbs_ne_zero.2 hx)]

/-- R185: SHL's rule is the plain write-back of the product. The zero source has product 0, and the capacity condition
decided from the bit length is the one that the write-back makes (log 14). -/
theorem exec_shl (rd rs1 : Reg) (s : State) :
    exec (.shl rd rs1) s =
      s.command (.shl rd rs1) fun s => s.writeBack rd (s.val rs1 * 2 ^ s.arg0.toNat) := by
  change execShl rd rs1 s = _
  unfold execShl
  congr 1
  funext s
  simp only [State.mag_reg, Int.natAbs_eq_zero, State.shiftOperand]
  split
  · next h0 => rw [h0, zero_mul]
  · next h0 =>
    rw [← limbLen_mul_two_pow h0]
    split
    · next hlong => exact (State.writeBack_tooLong hlong).symm
    · rw [mag_shlMag, signedVal_mul_pow, State.val]

/-- R186: SHR's rule is the plain write-back of the truncating quotient. -/
theorem exec_shr (rd rs1 : Reg) (s : State) :
    exec (.shr rd rs1) s =
      s.command (.shr rd rs1) fun s => s.writeBack rd ((s.val rs1).tdiv (2 ^ s.arg0.toNat)) := by
  change execShr rd rs1 s = _
  unfold execShr
  congr 1
  funext s
  rw [mag_shrMag, signedVal_div, State.val, State.shiftOperand, Nat.cast_pow, Nat.cast_ofNat]

section
variable {s : State} {rd rs1 : Reg} (hrd : rd.toNat < s.params.nreg) (hrs1 : rs1.toNat < s.params.nreg)
include hrd hrs1

/-- R185: SHL of a product that fits. -/
theorem exec_shl_fits (hfits : limbLen (s.val rs1 * 2 ^ s.arg0.toNat).natAbs ≤ s.params.maxLimbs) :
    exec (.shl rd rs1) s = .next (s.wrote rd (s.val rs1 * 2 ^ s.arg0.toNat)) := by
  rw [exec_shl]
  exact State.command_wrote (registersInRange_two rfl hrd hrs1) rfl hfits

/-- R185: SHL of a product that does not fit. -/
theorem exec_shl_tooLong (hlong : s.params.maxLimbs < limbLen (s.val rs1 * 2 ^ s.arg0.toNat).natAbs) :
    exec (.shl rd rs1) s = .next (s.failed .capacityExceeded (.shl rd rs1)) := by
  rw [exec_shl]
  exact State.command_tooLong (registersInRange_two rfl hrd hrs1) rfl hlong

/-- R185: an SHL that ends without error has written the product, and the product fits. -/
theorem exec_shl_of_err_eq_none {t : State} (hexec : exec (.shl rd rs1) s = .next t) (herr : t.err = none) :
    limbLen (s.val rs1 * 2 ^ s.arg0.toNat).natAbs ≤ s.params.maxLimbs ∧
      t = s.wrote rd (s.val rs1 * 2 ^ s.arg0.toNat) := by
  rcases le_or_gt (limbLen (s.val rs1 * 2 ^ s.arg0.toNat).natAbs) s.params.maxLimbs with hfits | hlong
  · exact ⟨hfits, Host.Outcome.next.inj (hexec.symm.trans (exec_shl_fits hrd hrs1 hfits))⟩
  · obtain rfl := Host.Outcome.next.inj (hexec.symm.trans (exec_shl_tooLong hrd hrs1 hlong))
    cases herr

end

/-- Settles O23: the product with `2^k` fits or not; for a nonzero source that is the condition on the bit length. -/
theorem shlMultipliesByPowerOfTwo : Obligations.ShlMultipliesByPowerOfTwo := by
  intro s rd rs1 hrd hrs1
  refine ⟨rfl, fun h0 => ?_, fun h0 hfits => ?_, fun h0 hlong => ?_⟩
  · have hzero : s.val rs1 * 2 ^ s.arg0.toNat = 0 := by rw [h0, zero_mul]
    rw [exec_shl_fits hrd hrs1 (by simp [hzero]), hzero]
  · exact exec_shl_fits hrd hrs1 (limbLen_mul_two_pow h0 _ ▸ hfits)
  · exact exec_shl_tooLong hrd hrs1 (limbLen_mul_two_pow h0 _ ▸ hlong)

/-- R186: a value shifted right is no longer than the value, so it always fits. -/
theorem State.tdiv_fits {s : State} (hs : s.wf) (r : Reg) (d : Int) :
    limbLen ((s.val r).tdiv d).natAbs ≤ s.params.maxLimbs := by
  refine le_trans (limbLen_mono ?_) (State.val_fits hs r)
  rw [Int.natAbs_tdiv]
  exact Nat.div_le_self _ _

/-- Settles O24: SHR writes the truncating quotient, which always fits. -/
theorem shrDividesTowardZero : Obligations.ShrDividesTowardZero := by
  intro s rd rs1 hs hrd hrs1
  rw [exec_shr]
  exact ⟨rfl, State.command_wrote (registersInRange_two rfl hrd hrs1) rfl (State.tdiv_fits hs rs1 _)⟩

/-- Settles O25: SHL has left the exact product, and SHR divides it by the same power of two. -/
theorem shiftLeftThenRightRestores : Obligations.ShiftLeftThenRightRestores := by
  intro s t rm rd rs1 hs hrm hrd hrs1 hexec herr
  obtain ⟨hfits, rfl⟩ := exec_shl_of_err_eq_none hrm hrs1 hexec herr
  have hwf := State.wrote_wf hs rm hfits
  have hregs : s.regs.length = s.params.nreg := hs.2.1
  obtain ⟨_, hshr⟩ := shrDividesTowardZero _ rd rm hwf hrd hrm
  refine ⟨_, hshr, rfl, ?_⟩
  rw [State.val_wrote_self (hwf.2.1.symm ▸ hrd), State.val_wrote_self (hregs ▸ hrm)]
  exact Int.mul_tdiv_cancel _ (by positivity)

end Sys2Proof.Machine
end

section
/-! PROOFS. The family spec/45_signed.md: ADD, SUB, NEG, ABS, CMP, ISZERO and ISNEG. `add_signed` on two sound registers is
the integer sum, and the sum with the subtrahend's sign flipped is the difference; the unary commands keep the magnitude, so
they always fit; the tests read the sign, the length and the order of normalized records. -/

namespace Sys2Proof.Machine

/-! ### Sign-magnitude addition on registers (R207) -/

/-- R201: flipping the sign negates the integer, for the magnitude 0 too. -/
theorem signedVal_not (sign : Bool) (m : Nat) : signedVal (!sign) m = -signedVal sign m := by
  cases sign
  · rfl
  · exact (neg_neg (m : Int)).symm

/-- R207: `add_signed` on two sound registers, the second under any sign. -/
theorem State.addSigned_reg {s : State} (hs : s.wf) (r q : Reg) (sign : Bool) :
    addSigned (s.reg r).limbs (s.reg r).sign (s.reg q).limbs sign = s.val r + signedVal sign (mag (s.reg q).limbs) :=
  addSigned_eq (BigReg.normalized_getLast (State.reg_normalized hs r))
    (BigReg.normalized_getLast (State.reg_normalized hs q)) _ _

/-! ### ADD and SUB (R200, R201) -/

/-- Settles O26: the rule writes back the integer sum, which fits or not. -/
theorem addWritesSignedSum : Obligations.AddWritesSignedSum := by
  intro s rd rs1 rs2 hs hrd hrs1 hrs2
  have hrange : registersInRange s.params.nreg (.add rd rs1 rs2) = true :=
    registersInRange_three rfl hrd hrs1 hrs2
  have hsum := congrArg (s.writeBack rd) (State.addSigned_reg hs rs1 rs2 (s.reg rs2).sign)
  change _ ∧ (_ → execAdd rd rs1 rs2 s = _) ∧ (_ → execAdd rd rs1 rs2 s = _)
  exact ⟨rfl, State.command_wrote hrange hsum, State.command_tooLong hrange hsum⟩

/-- Settles O27: the sum with the subtrahend negated is the integer difference, which fits or not. -/
theorem subWritesSignedDifference : Obligations.SubWritesSignedDifference := by
  intro s rd rs1 rs2 hs hrd hrs1 hrs2
  have hrange : registersInRange s.params.nreg (.sub rd rs1 rs2) = true :=
    registersInRange_three rfl hrd hrs1 hrs2
  have hdiff := congrArg (s.writeBack rd) (State.addSigned_reg hs rs1 rs2 (!(s.reg rs2).sign))
  rw [signedVal_not, ← sub_eq_add_neg] at hdiff
  change _ ∧ (_ → execSub rd rs1 rs2 s = _) ∧ (_ → execSub rd rs1 rs2 s = _)
  exact ⟨rfl, State.command_wrote hrange hdiff, State.command_tooLong hrange hdiff⟩

/-! ### NEG and ABS (R202, R203) -/

/-- Settles O28: the negated and the absolute value have the source's magnitude, so both fit. -/
theorem negAndAbsWriteSignedValues : Obligations.NegAndAbsWriteSignedValues := by
  intro s rd rs1 hs hrd hrs1
  have hfits := State.val_fits hs rs1
  have habs := congrArg (s.writeBack rd) (s.natCast_mag_reg rs1)
  change _ ∧ _ ∧ execNeg rd rs1 s = _ ∧ execAbs rd rs1 s = _
  refine ⟨rfl, rfl, ?_, ?_⟩
  · exact State.command_wrote (registersInRange_two rfl hrd hrs1) rfl (by rwa [Int.natAbs_neg])
  · exact State.command_wrote (registersInRange_two rfl hrd hrs1) habs (by rwa [Int.natAbs_abs])

/-! ### CMP, ISZERO and ISNEG (R204 to R206) -/

/-- Settles O29: the comparison of the signs, then of the magnitudes, is the integer order. -/
theorem cmpAnswersIntegerOrder : Obligations.CmpAnswersIntegerOrder := by
  intro s rs1 rs2 hs hrs1 hrs2
  have horder : cmpSigned (s.reg rs1) (s.reg rs2) = compare (s.val rs1) (s.val rs2) :=
    cmpSigned_eq_compare (State.reg_normalized hs rs1) (State.reg_normalized hs rs2)
  refine ⟨rfl, ?_⟩
  change execCmp rs1 rs2 s = _
  rw [← orderWord_compare, ← horder]
  exact State.command_answers (registersInRange_two rfl hrs1 hrs2)

/-- R205: ISZERO's test of the length is a test of the value (R23). -/
theorem State.boolWord_len_reg {s : State} (hs : s.wf) (r : Reg) :
    boolWord ((s.reg r).len == 0) = if s.val r = 0 then 1 else 0 := by
  have hlen : (s.reg r).len = 0 ↔ s.val r = 0 := BigReg.len_eq_zero_iff (State.reg_normalized hs r)
  simp only [boolWord, beq_iff_eq, hlen]

/-- R206: ISNEG's sign bit is a test of the value (R22). -/
theorem State.boolWord_sign_reg {s : State} (hs : s.wf) (r : Reg) :
    boolWord (s.reg r).sign = if s.val r < 0 then 1 else 0 := by
  simp only [boolWord, State.sign_reg hs r, decide_eq_true_eq]

/-- Settles O30: a sound register's length and sign test its value. -/
theorem zeroAndSignTestsAnswerByValue : Obligations.ZeroAndSignTestsAnswerByValue := by
  intro s rs1 hs hrs1
  rw [← State.boolWord_len_reg hs, ← State.boolWord_sign_reg hs]
  change _ ∧ _ ∧ execIszero rs1 s = _ ∧ execIsneg rs1 s = _
  exact ⟨rfl, rfl, State.command_answers (registersInRange_one rfl hrs1),
    State.command_answers (registersInRange_one rfl hrs1)⟩

end Sys2Proof.Machine
end

section
/-! PROOFS. The family spec/60_exceptions.md: the two completions as whole next states, the register range check, the
errors that each command can raise, and the order of a flag clear and a failing completion. -/

namespace Sys2Proof.Machine

/-! ### The register range check (R221) -/

/-- R221: a command that the range check refuses fails with BadRegister, before its rule is looked at. -/
theorem exec_badRegister {s : State} {i : Instr} (h : i.wellFormed s.params.nreg = false) :
    exec i s = .next (s.failed .badRegister i) := by
  obtain ⟨rule, hexec⟩ := exec_is_command i s
  rw [hexec]
  exact State.command_badRegister ((registersInRange_eq_wellFormed _ i).trans h)

/-- R221: an 8-bit field is below 256, so with `NREG = 256` the range check refuses nothing. -/
theorem wellFormed_nreg_256 (i : Instr) : i.wellFormed 256 = true := by
  rw [← registersInRange_eq_wellFormed, registersInRange, List.all_eq_true]
  exact fun r _ => decide_eq_true r.isLt

/-- Settles O31: the refused command, and the register file that 8-bit fields cannot leave. -/
theorem badRegisterFieldFails : Obligations.BadRegisterFieldFails :=
  ⟨fun _ _ => exec_badRegister, wellFormed_nreg_256⟩

/-! ### The two completions (R223, R224) -/

/-- Settles O35: a completion that ends with an error is the failing one, which is this record. -/
theorem failuresArePrecise : Obligations.FailuresArePrecise := by
  intro s t i h herr
  rcases exec_cases h with ⟨e, rfl⟩ | ⟨u, _, rfl⟩
  · rfl
  · exact absurd u.complete_err herr

/-- R223: no rule writes the record of earlier errors. -/
theorem Effect.keeps_errorRecord {s u : State} {i : Instr} (h : Effect s i u) :
    u.stickyErr = s.stickyErr ∧ u.cmdLost = s.cmdLost ∧ u.errCmd = s.errCmd := by
  cases h <;> exact ⟨rfl, rfl, rfl⟩

/-- Settles O36: a completion that ends without error is the successful one, which keeps what its effect left. -/
theorem successKeepsErrorRecord : Obligations.SuccessKeepsErrorRecord := by
  intro s t i h herr
  rcases exec_cases h with ⟨e, rfl⟩ | ⟨u, hu, rfl⟩
  · exact absurd herr nofun
  · exact ⟨u.complete_pending, hu.keeps_errorRecord⟩

/-! ### The errors that a command can raise (R220) -/

/-- The commands of CapacityExceeded's row in the table of R220. -/
inductive CanExceedCapacity : Instr → Prop where
  | addm (rd rs1 rs2 : Reg) : CanExceedCapacity (.addm rd rs1 rs2)
  | multiply {rd rs1 rs2 : Reg} {i : Instr} {sel : Params → Nat → MulPath} (h : IsMultiply rd rs1 rs2 i sel) :
      CanExceedCapacity i
  | and (rd rs1 rs2 : Reg) : CanExceedCapacity (.and rd rs1 rs2)
  | xor (rd rs1 rs2 : Reg) : CanExceedCapacity (.xor rd rs1 rs2)
  | shl (rd rs1 : Reg) : CanExceedCapacity (.shl rd rs1)
  | add (rd rs1 rs2 : Reg) : CanExceedCapacity (.add rd rs1 rs2)
  | sub (rd rs1 rs2 : Reg) : CanExceedCapacity (.sub rd rs1 rs2)
  | resize (rd : Reg) : CanExceedCapacity (.resize rd)
  | wrlimb (rd : Reg) : CanExceedCapacity (.wrlimb rd)

/-- Every error that the rule of command `i` can raise in the state `s`, with its cause: the rows 2, 6 and 7 of R220. -/
inductive Raises (s : State) : Instr → ErrCode → Prop where
  | divisionByZero {rd rs1 rs2 : Reg} {i : Instr} {pick : Int × Int → Int} (h : IsDivide rd rs1 rs2 i pick)
      (h0 : s.val rs2 = 0) : Raises s i .divisionByZero
  | magnitudeOrder {rd rs1 rs2 : Reg} (hlt : |s.val rs1| < |s.val rs2|) : Raises s (.subm rd rs1 rs2) .magnitudeOrder
  | capacityExceeded {i : Instr} (h : CanExceedCapacity i) : Raises s i .capacityExceeded

/-- R26: the only error of the write-back is CapacityExceeded. -/
theorem State.writeBack_error {s : State} {d : Reg} {x : Int} {e : ErrCode} (h : s.writeBack d x = .error e) :
    e = .capacityExceeded := by
  rcases s.writeBack_cases d x with ⟨_, heq⟩ | ⟨_, heq⟩ <;> cases heq.symm.trans h
  rfl

/-- R26: a value that fits raises no error. -/
theorem State.writeBack_ne_error {s : State} {d : Reg} {x : Int} (hx : limbLen x.natAbs ≤ s.params.maxLimbs)
    (e : ErrCode) : s.writeBack d x ≠ .error e := by
  rw [State.writeBack_fits hx]
  exact nofun

theorem Raises.of_writeBack {s : State} {i : Instr} {d : Reg} {x : Int} {e : ErrCode} (hi : CanExceedCapacity i)
    (h : s.writeBack d x = .error e) : Raises s i e :=
  State.writeBack_error h ▸ .capacityExceeded hi

/-- R149: a multiply raises the error of its write-back and no other. -/
theorem IsMultiply.raises {s : State} {i : Instr} {sel : Params → Nat → MulPath} {rd rs1 rs2 : Reg} {e : ErrCode}
    (hmul : IsMultiply rd rs1 rs2 i sel) (h : multiplyRule sel rd rs1 rs2 s = .error e) : Raises s i e := by
  simp only [multiplyRule] at h
  split at h
  · cases h
  · next hwb => exact Except.error.inj h ▸ .of_writeBack (.multiply hmul) hwb

/-- R161 to R163: a division raises DivisionByZero for a zero divisor and nothing else; what it writes fits. -/
theorem IsDivide.raises {s : State} (hs : s.wf) {i : Instr} {pick : Int × Int → Int} {rd rs1 rs2 : Reg} {e : ErrCode}
    (hdiv : IsDivide rd rs1 rs2 i pick) (h : divideRule pick rd rs1 rs2 s = .error e) : Raises s i e := by
  by_cases h0 : s.val rs2 = 0
  · rw [divideRule_of_eq_zero hs pick rd rs1 h0] at h
    exact Except.error.inj h ▸ .divisionByZero hdiv h0
  · rw [divideRule_of_ne_zero hs pick rd h0] at h
    exact absurd h (State.writeBack_ne_error (hdiv.pick_fits hs _) e)

/-- R121: SUBM's test is the order of the absolute values. -/
theorem State.cmpMag_reg_lt_iff {s : State} (hs : s.wf) (r q : Reg) :
    cmpMag (s.reg r).limbs (s.reg q).limbs = .lt ↔ |s.val r| < |s.val q| := by
  rw [State.cmpMag_reg hs, compare_lt_iff_lt]

/-- Every command is one rule under the shared completion; in a sound state it raises only the errors of its rows. -/
theorem exec_rule_raises {s : State} (hs : s.wf) (i : Instr) :
    ∃ rule : Rule, exec i s = s.command i rule ∧ ∀ e, rule s = .error e → Raises s i e := by
  cases i with
  | nop | copy | move | rdlimb | len | cap | bitlen | cmpm | cmp | iszero | isneg =>
    dsimp only [exec, execNop, execCopy, execMove, execRdlimb, execLen, execCap, execBitlen, execCmpm, execCmp,
      execIszero, execIsneg]
    exact ⟨_, rfl, nofun⟩
  | ldi rd =>
    obtain ⟨hone, _⟩ := Params.maxLimbs_range hs.1
    dsimp only [exec, execLdi]
    exact ⟨_, rfl, fun e h => absurd h (State.writeBack_ne_error ((limbLen_toInt_le_one s.arg0).trans hone) e)⟩
  | resize rd =>
    dsimp only [exec, execResize]
    refine ⟨_, rfl, fun e h => ?_⟩
    split at h
    · exact Except.error.inj h ▸ .capacityExceeded (.resize rd)
    · cases h
  | wrlimb rd =>
    dsimp only [exec, execWrlimb]
    refine ⟨_, rfl, fun e h => ?_⟩
    split at h
    · exact Except.error.inj h ▸ .capacityExceeded (.wrlimb rd)
    · exact .of_writeBack (.wrlimb rd) h
  | subm rd rs1 rs2 =>
    dsimp only [exec, execSubm]
    refine ⟨_, rfl, fun e h => ?_⟩
    split at h
    · next hlt => exact Except.error.inj h ▸ .magnitudeOrder ((State.cmpMag_reg_lt_iff hs rs1 rs2).1 hlt)
    · next hnot =>
      have hle : |s.val rs2| ≤ |s.val rs1| := not_lt.1 (mt (State.cmpMag_reg_lt_iff hs rs1 rs2).2 hnot)
      rw [State.mag_subMag_reg hle] at h
      exact absurd h (State.writeBack_ne_error (State.magDiff_fits hs hle) e)
  | mul rd rs1 rs2 => exact ⟨_, IsMultiply.mul.exec_eq s, fun e => IsMultiply.mul.raises⟩
  | muls rd rs1 rs2 => exact ⟨_, IsMultiply.muls.exec_eq s, fun e => IsMultiply.muls.raises⟩
  | mulk rd rs1 rs2 => exact ⟨_, IsMultiply.mulk.exec_eq s, fun e => IsMultiply.mulk.raises⟩
  | mulf rd rs1 rs2 => exact ⟨_, IsMultiply.mulf.exec_eq s, fun e => IsMultiply.mulf.raises⟩
  | div rd rs1 rs2 => exact ⟨_, IsDivide.div.exec_eq s, fun e => IsDivide.div.raises hs⟩
  | mod rd rs1 rs2 => exact ⟨_, IsDivide.mod.exec_eq s, fun e => IsDivide.mod.raises hs⟩
  | and rd rs1 rs2 => exact ⟨_, exec_and rd rs1 rs2 s, fun e => .of_writeBack (.and rd rs1 rs2)⟩
  | xor rd rs1 rs2 => exact ⟨_, exec_xor rd rs1 rs2 s, fun e => .of_writeBack (.xor rd rs1 rs2)⟩
  | or rd rs1 rs2 =>
    refine ⟨_, exec_or rd rs1 rs2 s, fun e h => ?_⟩
    rw [logicalRule, logicalVal_or (State.reg_normalized hs rs1) (State.reg_normalized hs rs2)] at h
    exact absurd h (State.writeBack_ne_error (State.lor_fits hs rs1 rs2) e)
  | shl rd rs1 => exact ⟨_, exec_shl rd rs1 s, fun e => .of_writeBack (.shl rd rs1)⟩
  | shr rd rs1 =>
    exact ⟨_, exec_shr rd rs1 s, fun e h => absurd h (State.writeBack_ne_error (State.tdiv_fits hs rs1 _) e)⟩
  | addm rd rs1 rs2 =>
    dsimp only [exec, execAddm]
    exact ⟨_, rfl, fun e => .of_writeBack (.addm rd rs1 rs2)⟩
  | add rd rs1 rs2 =>
    dsimp only [exec, execAdd]
    exact ⟨_, rfl, fun e => .of_writeBack (.add rd rs1 rs2)⟩
  | sub rd rs1 rs2 =>
    dsimp only [exec, execSub]
    exact ⟨_, rfl, fun e => .of_writeBack (.sub rd rs1 rs2)⟩
  | neg rd rs1 =>
    have hfits : limbLen (-(s.reg rs1).val).natAbs ≤ s.params.maxLimbs := by
      rw [Int.natAbs_neg]
      exact State.val_fits hs rs1
    dsimp only [exec, execNeg]
    exact ⟨_, rfl, fun e h => absurd h (State.writeBack_ne_error hfits e)⟩
  | abs rd rs1 =>
    have hfits : limbLen (mag (s.reg rs1).limbs : Int).natAbs ≤ s.params.maxLimbs := by
      rw [State.mag_reg, Int.natAbs_natCast]
      exact State.val_fits hs rs1
    dsimp only [exec, execAbs]
    exact ⟨_, rfl, fun e h => absurd h (State.writeBack_ne_error hfits e)⟩

/-- R221, R222: an error of a command is the range check's or its rule's. -/
theorem exec_err {s t : State} {i : Instr} {e : ErrCode} (hs : s.wf) (h : exec i s = .next t) (he : t.err = some e) :
    (i.wellFormed s.params.nreg = false ∧ e = .badRegister) ∨ Raises s i e := by
  obtain ⟨rule, hexec, hraises⟩ := exec_rule_raises hs i
  rw [hexec] at h
  rcases s.command_cases i rule with ⟨_, u, _, hc⟩ | ⟨_, e', hrule, hc⟩ | ⟨hr, hc⟩ <;>
    obtain rfl := Host.Outcome.next.inj (hc.symm.trans h)
  · cases he
  · exact .inr (hraises e (Option.some.inj he ▸ hrule))
  · exact .inl ⟨registersInRange_eq_wellFormed s.params.nreg i ▸ hr, (Option.some.inj he).symm⟩

/-- Settles O33: the rows of R220 that the range check and the rules leave. -/
theorem errorCodesBelongToTheirCommands : Obligations.ErrorCodesBelongToTheirCommands := by
  intro s t i e hs h he
  rcases exec_err hs h he with ⟨hrange, rfl⟩ | hraises
  · exact hrange
  cases hraises with
  | divisionByZero hdiv h0 => cases hdiv <;> exact h0
  | magnitudeOrder hlt => exact hlt
  | capacityExceeded hi =>
    cases hi with
    | multiply hmul => cases hmul <;> trivial
    | addm | and | xor | shl | add | sub | resize | wrlimb => trivial

/-! ### A flag clear and a failing completion (R228) -/

/-- A run of two steps. -/
theorem core_run_two {s u t : State} (hfirst : step s = .next u) (hsecond : step u = .next t) :
    Sys2Proof.core.run 2 s = .next t :=
  (core_run_succ hfirst 1).trans (core_run_succ hsecond 0)

/-- Settles O56: each schedule is two steps, and the later one decides `STICKY_ERR`. -/
theorem clearAndFailureInBothOrders : Obligations.ClearAndFailureInBothOrders := by
  intro s w v hpend hw hbit
  obtain ⟨hillegal, _⟩ := illegalWordsFail
  constructor
  · refine ⟨_, core_run_two (statusWriteClearsOnlyItsFlags _ v [.engine] rfl) (hillegal _ w rfl ?_ hw), rfl, rfl⟩
    exact hpend
  · refine ⟨_, core_run_two (hillegal _ w rfl ?_ hw) (statusWriteClearsOnlyItsFlags _ v [] rfl), if_pos hbit, rfl⟩
    exact hpend

end Sys2Proof.Machine
end

section
/-! PROOFS. The family spec/70_reset_and_hazards.md: the reset step. -/

namespace Sys2Proof.Machine

/-- Taking an entry leaves the rest of the schedule. -/
theorem State.popEvent_of_schedule {s : State} {e : Event} {rest : List Event} (h : s.schedule = e :: rest) :
    s.popEvent = { s with schedule := rest } := by
  rw [State.popEvent, h, List.tail_cons]

/-- Settles O45: the scheduled step is the platform's, and `assertReset` takes from the state before it only the
parameters, the host, the rest of the schedule and the read log. -/
theorem resetStepClearsTheBlock : Obligations.ResetStepClearsTheBlock := by
  intro s rest h
  calc step s
    _ = agentStep .reset s.popEvent := step_scheduled h
    _ = .next (State.assertReset { s with schedule := rest }) := by rw [State.popEvent_of_schedule h]; rfl

end Sys2Proof.Machine
end
